-- ==== Sys2Proof/Word.lean ====
section
/-! DEFINITION. The words of SCCA-CORE: bytes, the 9-bit program counter, the 10-bit error value,
and the eight register numbers (spec/00_scope.md R6, R7). -/

namespace Sys2Proof

/-- A byte: "always read as an unsigned number 0 to 255" (00_scope.md R7). -/
abbrev Byte := BitVec 8

/-- The width of the program counter, 9 bits (10_state.md R27). -/
abbrev PcWord := BitVec 9

/-- The width of `err_val`, 10 bits, two's complement (10_state.md R39). -/
abbrev ErrWord := BitVec 10

/-- A legal register number, 0 to 7 (10_state.md R21). -/
abbrev RegIdx := Fin 8

end Sys2Proof
end

