-- ==== Sys2Proof/Config.lean ====
section
/-! DEFINITION. What is fixed for a run and is not state (spec/10_state.md R43, 00_scope.md R6): the
13 operations, the type of the opcode map `OPC` with its two constraints, the sizes, and `TRACE_EN`.
The map's default values stand in Sys2Proof/Decode.lean. -/

namespace Sys2Proof

/-- The 13 operations of the closed instruction set, in the order of 30_encoding.md R85. -/
inductive Mnemonic where
  | halt
  | loadImmediate
  | print
  | add
  | multiply
  | push
  | pop
  | call
  | ret
  | compare
  | jump
  | jumpIfEqual
  | jumpIfNotEqual
deriving DecidableEq, Repr

/-- All 13 operations (30_encoding.md R85: "these 13 instructions and no others"). -/
def Mnemonic.all : List Mnemonic :=
  [.halt, .loadImmediate, .print, .add, .multiply, .push, .pop, .call, .ret, .compare, .jump,
    .jumpIfEqual, .jumpIfNotEqual]

/-- The parameter `OPC`: which byte encodes which operation (30_encoding.md R86; assumption 1). -/
abbrev OpcodeMap := Mnemonic → Byte

/-- The two constraints on `OPC` (30_encoding.md R86): (a) injective, (b) 0xFF is not a value. -/
def OpcodeMap.Legal (m : OpcodeMap) : Prop :=
  (∀ a b, m a = m b → a = b) ∧ ∀ a, m a ≠ 0xFF

namespace Config

/-- `MEM_SIZE`, the number of memory cells (00_scope.md R6). -/
abbrev memSize : Nat := 256

/-- `SP_IDX`, the register that is the stack pointer (00_scope.md R6). -/
abbrev spIdx : RegIdx := 7

/-- `FL_IDX`, the register that holds the flags (00_scope.md R6). -/
abbrev flIdx : RegIdx := 6

/-- `FL_EQ`, the bit of the flags register that says equal (00_scope.md R6). -/
abbrev flEq : Nat := 0

/-- `FL_GT`, the bit of the flags register that says greater (00_scope.md R6). -/
abbrev flGt : Nat := 1

/-- `FL_LT`, the bit of the flags register that says less (00_scope.md R6). -/
abbrev flLt : Nat := 2

/-- `SP_RESET`, the reset value of the stack pointer (00_scope.md R6: "document"). -/
abbrev spReset : Byte := 255

/-- `GPR_RESET`, the reset value of registers 0 to 6 (00_scope.md R6, the spec's decision D3;
DESIGN CHOICE, assumption 2). -/
abbrev gprReset : Byte := 0

/-- `PC_RESET` (00_scope.md R6, the spec's decision D5; DESIGN CHOICE, assumption 4). -/
abbrev pcReset : PcWord := 0

/-- `TRACE_EN`: this hardware has no trace port (00_scope.md R6, the spec's decision D24). -/
abbrev traceEn : Bool := false

end Config

end Sys2Proof
end

