-- ==== Sys2Proof/Machine/State.lean ====
section
/-! DEFINITION. The state of SCCA-CORE, whole and plain (spec/10_state.md R20: "The complete state of the
machine is the tuple below. Nothing else persists from one instruction to the next"), its reset value,
and the reasons a step can stop. -/

namespace Sys2Proof.Machine

/-- The 256 cells (10_state.md R33) as address and byte pairs in one canonical form: addresses strictly
rising, and no entry that holds what an unlisted address reads as (`Memory.wf`, Machine/Ops.lean). -/
abbrev Memory := List Host.Cell

/-- `run_state` (10_state.md R36). -/
inductive RunState where
  /-- After reset: the loader may write Memory, no instruction executes. -/
  | loading
  /-- The machine executes one instruction per step. -/
  | running
  /-- HALT executed, or started with no program loaded: a clean end. -/
  | halted
  /-- A fatal error was raised. -/
  | faulted
deriving DecidableEq, Repr

/-- What `err_cause` names (10_state.md R37, 60_exceptions.md R241). "Codes 5 to 7 are never produced." -/
inductive ErrCause where
  | noError
  | addressError
  | registerError
  | unknownOpcodeError
  | fatalError
deriving DecidableEq, Repr

/-- A fatal error with the value it reports (60_exceptions.md R241): what `raise E(v)` is given. -/
inductive CoreError where
  /-- "address outside memory bounds"; the offending address, an integer (60_exceptions.md R242). -/
  | address (a : Int)
  /-- "register index outside [0,8)"; the offending operand byte (60_exceptions.md R243). -/
  | register (b : Byte)
  /-- A byte of no opcode; the byte (60_exceptions.md R244). -/
  | unknownOpcode (b : Byte)
  /-- "Unsupported ALU selector"; the selector (60_exceptions.md R246). -/
  | fatal (sel : BitVec 3)
deriving DecidableEq, Repr

/-- The state (10_state.md R20). The stack pointer is `x[7]` and the flags are `x[6]` (R23, R24). -/
structure State where
  /-- The eight general registers (R21). -/
  x : Vector Byte 8
  /-- The address of the instruction being executed (R27). -/
  pc : PcWord
  /-- Memory: program, data and stack (R33). -/
  mem : Memory
  /-- The bytes PRINT has emitted since reset, oldest first (R34). -/
  out : List Byte
  /-- LOADING, RUNNING, HALTED or FAULTED (R36). -/
  runState : RunState
  /-- The error's code (R37). -/
  errCause : ErrCause
  /-- The faulting instruction's address (R38). -/
  errPc : PcWord
  /-- The value the error reports, two's complement (R39). -/
  errVal : ErrWord
  /-- The loader has written a byte (R40). -/
  progLoaded : Bool
deriving DecidableEq, Repr

/-- The machine right after reset (10_state.md R42, 70_reset_and_hazards.md R280), with MEM_INIT at its
default. The spec takes every value but the stack pointer's by its own decisions D3, D4, D5, D16, D18
and D19 (DESIGN CHOICE, assumptions 2, 3, 4 and 13). -/
def State.reset : State where
  x := #v[Config.gprReset, Config.gprReset, Config.gprReset, Config.gprReset, Config.gprReset,
    Config.gprReset, Config.gprReset, Config.spReset]
  pc := Config.pcReset
  mem := []
  out := []
  runState := .loading
  errCause := .noError
  errPc := 0
  errVal := 0
  progLoaded := false

/-- Why `step` stops. None of these is an error of the running machine: the machine's own fatal errors
lead to a NEXT state, in FAULTED (60_exceptions.md R250). They are the stuck states, where the spec
defines no step (40_step_cycle.md R101, 93_implementation_defined.md V11; assumption 14). -/
inductive Fault where
  /-- Raised by `step` in LOADING: only the loader, `start` and reset act there. Safe: it stops. -/
  | loading
  /-- Raised by `step` in HALTED: the run has ended cleanly. Safe: it stops. -/
  | halted
  /-- Raised by `step` in FAULTED: the run has ended in error. Safe: it stops. -/
  | faulted
deriving DecidableEq, Repr

/-- Why `exec` has no meaning for an instruction. -/
inductive Refusal where
  /-- The named instruction has no meaning in the model yet. Nothing raises it: every instruction has
  its meaning. Safe: it stops. -/
  | notModelled (mnemonic : String)
deriving DecidableEq, Repr

/-- What an instruction or a step answers. -/
abbrev Result := Host.Outcome State Fault Refusal

end Sys2Proof.Machine
end

