-- ==== Sys2Proof/Machine/Ops.lean ====
section
/-! DEFINITION. The operations every instruction is written with: memory by byte, registers, the
program counter, the two stack operations, the output stream, and RAISING A FATAL ERROR as one shared
operation (spec/00_scope.md R9; 20_memory.md; 43_stack.md R151, R152; 60_exceptions.md R250). -/

namespace Sys2Proof.Machine

/-! ### Memory as data -/

/-- What an address that memory does not list reads as: MEM_INIT's default (10_state.md R42, the spec's
decision D4; DESIGN CHOICE, assumption 3). -/
def unlistedByte : Byte := 0x00

/-- The byte at an address. -/
def Memory.read : Memory → Nat → Byte
  | [], _ => unlistedByte
  | (k, w) :: rest, a => if a = k then w else Memory.read rest a

/-- Put a byte at an address, keeping the canonical form. -/
def Memory.write : Memory → Nat → Byte → Memory
  | [], a, v => if v = unlistedByte then [] else [(a, v)]
  | (k, w) :: rest, a, v =>
    if a < k then
      if v = unlistedByte then (k, w) :: rest else (a, v) :: (k, w) :: rest
    else if a = k then
      if v = unlistedByte then rest else (a, v) :: rest
    else (k, w) :: Memory.write rest a v

/-- Every address listed is above `lo`, the addresses rise strictly, and no entry holds what an unlisted
address reads as. -/
def Memory.wfAbove : Nat → Memory → Bool
  | _, [] => true
  | lo, (k, w) :: rest => decide (lo ≤ k) && decide (w ≠ unlistedByte) && Memory.wfAbove (k + 1) rest

/-- The canonical form. -/
def Memory.wf (m : Memory) : Bool := Memory.wfAbove 0 m

/-- Only the 256 cells are listed (10_state.md R33). -/
def Memory.inRange (m : Memory) : Bool := m.all fun c => decide (c.1 < Config.memSize)

/-- The memory that holds `f a` at every address `a` below `n`. -/
def Memory.ofFun (f : Nat → Byte) : Nat → Memory
  | 0 => []
  | n + 1 => Memory.write (Memory.ofFun f n) n (f n)

/-- `MemRead(a, 1)` (00_scope.md R9). -/
def memRead (s : State) (a : Int) : Except CoreError Byte :=
  if a < 0 ∨ (Config.memSize : Int) ≤ a then .error (.address a) else .ok (s.mem.read a.toNat)

/-- `MemWrite(a, 1, v)` (00_scope.md R9). -/
def memWrite (s : State) (a : Int) (v : Byte) : Except CoreError State :=
  if a < 0 ∨ (Config.memSize : Int) ≤ a then .error (.address a)
  else .ok { s with mem := s.mem.write a.toNat v }

/-! ### Registers, program counter, output -/

/-- Register `i` (10_state.md R21). -/
def State.reg (s : State) (i : RegIdx) : Byte := s.x[i]

/-- Write register `i` (10_state.md R21). -/
def State.setReg (s : State) (i : RegIdx) (v : Byte) : State := { s with x := s.x.set i v }

/-- `stack_pointer()`: another name of register 7 (10_state.md R23). -/
def State.sp (s : State) : Byte := s.reg Config.spIdx

/-- `flags()`: another name of register 6 (10_state.md R24). -/
def State.flags (s : State) : Byte := s.reg Config.flIdx

/-- Move the program counter past the instruction's `n` bytes, exactly in 9 bits (44_control_transfer.md
R170 PLUS2 and PLUS3; 10_state.md R29). -/
def State.advance (s : State) (n : PcWord) : State := { s with pc := s.pc + n }

/-- Load the program counter with a byte, widened with zeros (44_control_transfer.md R170 REG and
POPPED, R171). -/
def State.jumpTo (s : State) (target : Byte) : State := { s with pc := target.setWidth 9 }

/-- Append a byte to the output stream (10_state.md R34, 41_system_move.md R123). -/
def State.emit (s : State) (v : Byte) : State := { s with out := s.out ++ [v] }

/-! ### Raising a fatal error -/

/-- The cause an error records (60_exceptions.md R241). -/
def CoreError.cause : CoreError → ErrCause
  | .address _ => .addressError
  | .register _ => .registerError
  | .unknownOpcode _ => .unknownOpcodeError
  | .fatal _ => .fatalError

/-- The value an error records, in `err_val`'s 10 bits of two's complement (60_exceptions.md R241,
10_state.md R39). -/
def CoreError.value : CoreError → ErrWord
  | .address a => BitVec.ofInt 10 a
  | .register b => b.setWidth 10
  | .unknownOpcode b => b.setWidth 10
  | .fatal sel => sel.setWidth 10

/-- `raise E(v)` (60_exceptions.md R250): "makes exactly these writes and no others". There is no handler
and no return from an error (R252), so nothing stands beside it. -/
def State.raise (s : State) (e : CoreError) : State :=
  { s with errCause := e.cause, errPc := s.pc, errVal := e.value, runState := .faulted }

/-- The end of an instruction on state `s`: the state it reached, or the error it raised. The error is
raised on `s` itself, so a faulting instruction has no partial effect (60_exceptions.md R250, the spec's
decision D7; assumption 6). -/
def settle (s : State) : Except CoreError State → Result
  | .ok t => .next t
  | .error e => .next (s.raise e)

/-! ### The stack -/

/-- The address a push writes: `SP - 1`, an integer (43_stack.md R151). -/
def pushAddr (s : State) : Int := (s.sp.toNat : Int) - 1

/-- `Push(v)` (43_stack.md R151). -/
def push (s : State) (v : Byte) : Except CoreError State :=
  match memWrite s (pushAddr s) v with
  | .error e => .error e
  | .ok t => .ok (t.setReg Config.spIdx (BitVec.ofInt 8 (pushAddr s)))

/-- `Pop()` (43_stack.md R152): the byte, and the state with the stack pointer moved. -/
def pop (s : State) : Except CoreError (Byte × State) :=
  match memRead s s.sp.toNat with
  | .error e => .error e
  | .ok v =>
    if 255 < s.sp.toNat + 1 then .error (.address (s.sp.toNat + 1))
    else .ok (v, s.setReg Config.spIdx (BitVec.ofNat 8 (s.sp.toNat + 1)))

end Sys2Proof.Machine
end

