-- ==== Sys2Proof/Machine/Flags.lean ====
section
/-! DEFINITION. The flags: bits 0, 1 and 2 of register 6 (spec/10_state.md R30), the three-way comparison
that computes them (42_alu.md R134), and the flag the conditional jumps test. -/

namespace Sys2Proof.Machine

/-- `ALU_CMP`'s three bits `(lt, gt, eq)`, exactly one set; the comparison is unsigned, the first operand
against the second (42_alu.md R134, the spec's decision D14; DESIGN CHOICE, assumption 11). -/
def compareBits (a b : Byte) : BitVec 3 :=
  if a.toNat = b.toNat then 0b001
  else if b.toNat < a.toNat then 0b010
  else 0b100

/-- The byte COMPARE writes to register 6: bits 7 to 3 cleared (42_alu.md R140, the spec's decision
D14; DESIGN CHOICE, assumption 11). -/
def flagsByte (cmp : BitVec 3) : Byte := cmp.setWidth 8

/-- EQ, `FL[0]` (10_state.md R30). -/
def State.eqFlag (s : State) : Bool := s.flags.getLsbD Config.flEq

/-- GT, `FL[1]` (10_state.md R30). No instruction tests it. -/
def State.gtFlag (s : State) : Bool := s.flags.getLsbD Config.flGt

/-- LT, `FL[2]` (10_state.md R30). No instruction tests it. -/
def State.ltFlag (s : State) : Bool := s.flags.getLsbD Config.flLt

end Sys2Proof.Machine
end

