-- ==== Sys2Proof/Syntax.lean ====
section
/-! DEFINITION. The instructions of SCCA-CORE with their operand bytes: one constructor per row of
spec/opcode_table.json (30_encoding.md R81, R85). A register operand is the whole operand byte, legal
or not (30_encoding.md R82); Sys2Proof/WellFormed.lean says which are legal. -/

namespace Sys2Proof

/-- The 13 instructions. Operands stand in byte order: byte 1, then byte 2 (20_memory.md R53). -/
inductive Instr where
  /-- HALT, format Z (41_system_move.md R120). -/
  | halt
  /-- LOAD_IMMEDIATE r, imm, format RI (41_system_move.md R122). -/
  | loadImmediate (r imm : Byte)
  /-- PRINT r, format R (41_system_move.md R123). -/
  | print (r : Byte)
  /-- ADD ra, rb, format RR (42_alu.md R138). -/
  | add (ra rb : Byte)
  /-- MULTIPLY ra, rb, format RR (42_alu.md R139). -/
  | multiply (ra rb : Byte)
  /-- PUSH r, format R (43_stack.md R156). -/
  | push (r : Byte)
  /-- POP r, format R (43_stack.md R157). -/
  | pop (r : Byte)
  /-- CALL r, format R (44_control_transfer.md R172). -/
  | call (r : Byte)
  /-- RETURN, format Z (44_control_transfer.md R174). -/
  | ret
  /-- COMPARE ra, rb, format RR (42_alu.md R140). -/
  | compare (ra rb : Byte)
  /-- JUMP r, format R (44_control_transfer.md R176). -/
  | jump (r : Byte)
  /-- JUMP_IF_EQUAL r, format R (44_control_transfer.md R180). -/
  | jumpIfEqual (r : Byte)
  /-- JUMP_IF_NOT_EQUAL r, format R (44_control_transfer.md R182). -/
  | jumpIfNotEqual (r : Byte)
deriving DecidableEq, Repr

/-- The operation of an instruction, without its operands. -/
def Instr.mnemonic : Instr → Mnemonic
  | .halt => .halt
  | .loadImmediate _ _ => .loadImmediate
  | .print _ => .print
  | .add _ _ => .add
  | .multiply _ _ => .multiply
  | .push _ => .push
  | .pop _ => .pop
  | .call _ => .call
  | .ret => .ret
  | .compare _ _ => .compare
  | .jump _ => .jump
  | .jumpIfEqual _ => .jumpIfEqual
  | .jumpIfNotEqual _ => .jumpIfNotEqual

end Sys2Proof
end

