-- ==== Sys2Proof/WellFormed.lean ====
section
/-! DEFINITION. Which instructions are well formed: every operand byte in a register position is 7 or
less (spec/30_encoding.md R82, R89). The literal of LOAD_IMMEDIATE is not checked (R83, R89). -/

namespace Sys2Proof

/-- The operand bytes in register positions, in the order they are checked: the first operand, then
the second (40_step_cycle.md R105 columns op1 and op2, R106). -/
def Instr.regOperands : Instr → List Byte
  | .halt => []
  | .loadImmediate r _ => [r]
  | .print r => [r]
  | .add ra rb => [ra, rb]
  | .multiply ra rb => [ra, rb]
  | .push r => [r]
  | .pop r => [r]
  | .call r => [r]
  | .ret => []
  | .compare ra rb => [ra, rb]
  | .jump r => [r]
  | .jumpIfEqual r => [r]
  | .jumpIfNotEqual r => [r]

/-- A byte that names a register: 0 to 7, all 8 bits read (30_encoding.md R82). -/
def legalReg (b : Byte) : Bool := b.toNat < 8

/-- Every register operand is a legal register number. -/
def Instr.wf (i : Instr) : Bool := i.regOperands.all legalReg

end Sys2Proof
end

