-- ==== Sys2Proof/Machine/Operands.lean ====
section
/-! DEFINITION. The operand forms: a register operand is a whole byte, legal 0 to 7; a literal is a whole
byte (spec/30_encoding.md R82, R83); and the register file's `get` and `set` by operand byte
(10_state.md R22, 00_scope.md R9). -/

namespace Sys2Proof.Machine

/-- The register an operand byte names, or the error it raises: "operand byte 8 or above is an error, it
is not reduced to its low 3 bits" (10_state.md R22). -/
def regIndex (b : Byte) : Except CoreError RegIdx :=
  if h : b.toNat < 8 then .ok ⟨b.toNat, h⟩ else .error (.register b)

/-- `RegRead(i)` (00_scope.md R9). -/
def regRead (s : State) (b : Byte) : Except CoreError Byte :=
  match regIndex b with
  | .error e => .error e
  | .ok i => .ok (s.reg i)

/-- `RegWrite(i, v)`, `v` any non-negative integer, stored modulo 256 (00_scope.md R9, 10_state.md R22). -/
def regWrite (s : State) (b : Byte) (v : Nat) : Except CoreError State :=
  match regIndex b with
  | .error e => .error e
  | .ok i => .ok (s.setReg i (BitVec.ofNat 8 v))

/-- Run an instruction's effect `k` on the register its operand byte names; an illegal byte raises
RegisterError first (40_step_cycle.md R106: "handlers must still validate decoded operands
defensively"; DEDUCED, assumption 19: the decoder has made the same check for every fetched
instruction). -/
def withReg (r : Byte) (k : RegIdx → Except CoreError State) : Except CoreError State :=
  match regIndex r with
  | .error e => .error e
  | .ok i => k i

/-- The same for two register operands, the first checked first (40_step_cycle.md R106). -/
def withRegs (ra rb : Byte) (k : RegIdx → RegIdx → Except CoreError State) : Except CoreError State :=
  withReg ra fun i => withReg rb fun j => k i j

end Sys2Proof.Machine
end

