-- ==== Sys2Proof/Machine/Alu.lean ====
section
/-! DEFINITION. The `alu` block, total on every selector (spec/42_alu.md R130 to R135), and the three
instructions that use it: ADD, MULTIPLY, COMPARE (R138, R139, R140). Its subtract function has no
instruction (R141). -/

namespace Sys2Proof.Machine

/-- Selector of the add function (42_alu.md R130, the spec's decision D21; assumption 16). -/
def aluAdd : BitVec 3 := 0b000

/-- Selector of the subtract function (42_alu.md R130). No opcode selects it (R141). -/
def aluSub : BitVec 3 := 0b001

/-- Selector of the multiply function (42_alu.md R130). -/
def aluMul : BitVec 3 := 0b010

/-- Selector of the compare function (42_alu.md R130). -/
def aluCmp : BitVec 3 := 0b011

/-- The ALU's two outputs (42_alu.md R130). -/
structure AluOut where
  result : Byte
  cmp : BitVec 3
deriving DecidableEq, Repr

/-- The ALU (42_alu.md R130 to R135): a pure function of two bytes and a selector; the unsupported
selectors 4 to 7 are a FatalError that reports the selector. -/
def alu (sel : BitVec 3) (a b : Byte) : Except CoreError AluOut :=
  if sel = aluAdd then .ok { result := a + b, cmp := 0 }
  else if sel = aluSub then .ok { result := a - b, cmp := 0 }
  else if sel = aluMul then .ok { result := a * b, cmp := 0 }
  else if sel = aluCmp then .ok { result := 0, cmp := compareBits a b }
  else .error (.fatal sel)

/-- An ALU instruction whose result goes to the first operand's register: both registers are read
before the write (42_alu.md R138, R139). -/
def aluToReg (sel : BitVec 3) (s : State) (i j : RegIdx) : Except CoreError State :=
  match alu sel (s.reg i) (s.reg j) with
  | .error e => .error e
  | .ok o => .ok ((s.setReg i o.result).advance 3)

/-- ADD ra, rb (42_alu.md R138). -/
def execAdd (ra rb : Byte) (s : State) : Result :=
  settle s (withRegs ra rb (aluToReg aluAdd s))

/-- MULTIPLY ra, rb (42_alu.md R139). -/
def execMultiply (ra rb : Byte) (s : State) : Result :=
  settle s (withRegs ra rb (aluToReg aluMul s))

/-- COMPARE ra, rb: the whole of register 6 is written (42_alu.md R140). -/
def execCompare (ra rb : Byte) (s : State) : Result :=
  settle s (withRegs ra rb fun i j =>
    match alu aluCmp (s.reg i) (s.reg j) with
    | .error e => .error e
    | .ok o => .ok ((s.setReg Config.flIdx (flagsByte o.cmp)).advance 3))

end Sys2Proof.Machine
end

