-- ==== Sys2Proof/Machine/ControlTransfer.lean ====
section
/-! DEFINITION. Control transfer: CALL, RETURN, JUMP, JUMP_IF_EQUAL, JUMP_IF_NOT_EQUAL
(spec/44_control_transfer.md R172, R174, R176, R180, R182). Every target is a register's value or a
popped byte, never an operand byte (R171). -/

namespace Sys2Proof.Machine

/-- The return address of a CALL: the address after its two bytes, an integer, which must fit a memory
cell (44_control_transfer.md R172, the spec's decision D11; assumption 9). -/
def returnAddress (s : State) : Except CoreError Byte :=
  if 255 < s.pc.toNat + 2 then .error (.address (s.pc.toNat + 2))
  else .ok (BitVec.ofNat 8 (s.pc.toNat + 2))

/-- CALL r: the return-address check, then the push, then the read of the target register
(44_control_transfer.md R172, the spec's decision D12; assumption 9). -/
def execCall (r : Byte) (s : State) : Result :=
  settle s (withReg r fun i =>
    match returnAddress s with
    | .error e => .error e
    | .ok v =>
      match push s v with
      | .error e => .error e
      | .ok t => .ok (t.jumpTo (t.reg i)))

/-- RETURN (44_control_transfer.md R174). -/
def execReturn (s : State) : Result :=
  settle s
    (match pop s with
    | .error e => .error e
    | .ok (v, t) => .ok (t.jumpTo v))

/-- JUMP r (44_control_transfer.md R176). -/
def execJump (r : Byte) (s : State) : Result :=
  settle s (withReg r fun i => .ok (s.jumpTo (s.reg i)))

/-- JUMP_IF_EQUAL r: bit 0 of register 6 decides, whatever wrote it (44_control_transfer.md R180; the
spec's decision D15, assumption 11). -/
def execJumpIfEqual (r : Byte) (s : State) : Result :=
  settle s (withReg r fun i => .ok (if s.eqFlag then s.jumpTo (s.reg i) else s.advance 2))

/-- JUMP_IF_NOT_EQUAL r: bit 0 of register 6 decides, whatever wrote it (44_control_transfer.md R182;
the spec's decision D15, assumption 11). -/
def execJumpIfNotEqual (r : Byte) (s : State) : Result :=
  settle s (withReg r fun i => .ok (if s.eqFlag then s.advance 2 else s.jumpTo (s.reg i)))

end Sys2Proof.Machine
end

