-- ==== Sys2Proof/Machine/Stack.lean ====
section
/-! DEFINITION. The stack instructions: PUSH and POP (spec/43_stack.md R156, R157). -/

namespace Sys2Proof.Machine

/-- PUSH r: the register is read before the stack pointer moves (43_stack.md R156, the spec's decision
D13; assumption 10). -/
def execPush (r : Byte) (s : State) : Result :=
  settle s (withReg r fun i =>
    match push s (s.reg i) with
    | .error e => .error e
    | .ok t => .ok (t.advance 2))

/-- POP r: the register is written after the stack pointer moves (43_stack.md R157, the spec's decision
D13; assumption 10). -/
def execPop (r : Byte) (s : State) : Result :=
  settle s (withReg r fun i =>
    match pop s with
    | .error e => .error e
    | .ok (v, t) => .ok ((t.setReg i v).advance 2))

end Sys2Proof.Machine
end

