-- ==== Sys2Proof/Machine/System.lean ====
section
/-! DEFINITION. The system and move instructions: HALT, LOAD_IMMEDIATE, PRINT
(spec/41_system_move.md R120, R122, R123). -/

namespace Sys2Proof.Machine

/-- HALT: the run ends cleanly, the pc keeps the HALT's own address (41_system_move.md R120, the spec's
decision D6; assumption 5). -/
def execHalt (s : State) : Result := settle s (.ok { s with runState := .halted })

/-- LOAD_IMMEDIATE r, imm (41_system_move.md R122). -/
def execLoadImmediate (r imm : Byte) (s : State) : Result :=
  settle s (withReg r fun i => .ok ((s.setReg i imm).advance 3))

/-- PRINT r (41_system_move.md R123). The sink accepts the byte (R125, 70_reset_and_hazards.md R289;
assumption 12). -/
def execPrint (r : Byte) (s : State) : Result :=
  settle s (withReg r fun i => .ok ((s.emit (s.reg i)).advance 2))

end Sys2Proof.Machine
end

