-- ==== Sys2Proof/Machine/Dispatch.lean ====
section
/-! DEFINITION. The execute phase: one arm per instruction, each one direct call of its meaning
(spec/40_step_cycle.md R107). -/

namespace Sys2Proof.Machine

def exec (i : Instr) (s : State) : Host.Outcome State Fault Refusal :=
  match i with
  | .halt => Sys2Proof.Machine.execHalt s
  | .loadImmediate r imm => Sys2Proof.Machine.execLoadImmediate r imm s
  | .print r => Sys2Proof.Machine.execPrint r s
  | .add ra rb => Sys2Proof.Machine.execAdd ra rb s
  | .multiply ra rb => Sys2Proof.Machine.execMultiply ra rb s
  | .push r => Sys2Proof.Machine.execPush r s
  | .pop r => Sys2Proof.Machine.execPop r s
  | .call r => Sys2Proof.Machine.execCall r s
  | .ret => Sys2Proof.Machine.execReturn s
  | .compare ra rb => Sys2Proof.Machine.execCompare ra rb s
  | .jump r => Sys2Proof.Machine.execJump r s
  | .jumpIfEqual r => Sys2Proof.Machine.execJumpIfEqual r s
  | .jumpIfNotEqual r => Sys2Proof.Machine.execJumpIfNotEqual r s

end Sys2Proof.Machine
end

