-- ==== Sys2Proof/Decode.lean ====
section
/-! DEFINITION. The decoder, total on any bytes and rejecting by name, and the encoder, both written
from spec/30_encoding.md R80 to R89 and 40_step_cycle.md R103 to R108, for any opcode map; then the
default map of 30_encoding.md R87 and the host's reading of a table word. -/

namespace Sys2Proof

/-- The default `OPC` (30_encoding.md R87; PRESUMED, assumption 1: the spec marks the values "from
general knowledge, not in source"). -/
def defaultOpc : OpcodeMap
  | .halt => 0b00000001
  | .loadImmediate => 0b10000010
  | .print => 0b01000111
  | .add => 0b10100000
  | .multiply => 0b10100010
  | .push => 0b01000101
  | .pop => 0b01000110
  | .call => 0b01010000
  | .ret => 0b00010001
  | .compare => 0b10100111
  | .jump => 0b01010100
  | .jumpIfEqual => 0b01010101
  | .jumpIfNotEqual => 0b01010110

/-- `Decode(opc)`: all 8 bits compared with the 13 values of the map (40_step_cycle.md R103). -/
def lookup (m : OpcodeMap) (opc : Byte) : Option Mnemonic :=
  Mnemonic.all.find? fun n => m n = opc

/-- The number of operand bytes (40_step_cycle.md R105, column arity). -/
def arity : Mnemonic → Nat
  | .halt => 0
  | .loadImmediate => 2
  | .print => 1
  | .add => 2
  | .multiply => 2
  | .push => 1
  | .pop => 1
  | .call => 1
  | .ret => 0
  | .compare => 2
  | .jump => 1
  | .jumpIfEqual => 1
  | .jumpIfNotEqual => 1

/-- Length = 1 + arity, known only from the opcode byte (30_encoding.md R84). -/
def Instr.length (i : Instr) : Nat := 1 + arity i.mnemonic

/-- Why bytes are not an instruction. -/
inductive DecodeError where
  /-- The instruction goes on past the bytes given: byte `k` (0, 1 or 2) is not there. -/
  | missingByte (k : Nat)
  /-- The first byte is none of the 13 opcode values (30_encoding.md R88). -/
  | unknownOpcode (b : Byte)
  /-- An operand byte in a register position is 8 or more (30_encoding.md R89). -/
  | badRegister (b : Byte)
deriving DecidableEq, Repr

/-- One operand byte, at offset 1 (40_step_cycle.md R104). -/
def oneOperand (mk : Byte → Instr) : List Byte → Except DecodeError (Instr × List Byte)
  | [] => .error (.missingByte 1)
  | op1 :: rest => .ok (mk op1, rest)

/-- Two operand bytes, at offsets 1 and 2, in ascending order (40_step_cycle.md R104). -/
def twoOperands (mk : Byte → Byte → Instr) : List Byte → Except DecodeError (Instr × List Byte)
  | [] => .error (.missingByte 1)
  | [_] => .error (.missingByte 2)
  | op1 :: op2 :: rest => .ok (mk op1 op2, rest)

/-- The operand bytes of each operation, in its format (30_encoding.md R80, R81). Bytes past the
arity are not looked at (40_step_cycle.md R104). -/
def takeOperands : Mnemonic → List Byte → Except DecodeError (Instr × List Byte)
  | .halt, bs => .ok (.halt, bs)
  | .loadImmediate, bs => twoOperands .loadImmediate bs
  | .print, bs => oneOperand .print bs
  | .add, bs => twoOperands .add bs
  | .multiply, bs => twoOperands .multiply bs
  | .push, bs => oneOperand .push bs
  | .pop, bs => oneOperand .pop bs
  | .call, bs => oneOperand .call bs
  | .ret, bs => .ok (.ret, bs)
  | .compare, bs => twoOperands .compare bs
  | .jump, bs => oneOperand .jump bs
  | .jumpIfEqual, bs => oneOperand .jumpIfEqual bs
  | .jumpIfNotEqual, bs => oneOperand .jumpIfNotEqual bs

/-- The first register operand that is no register number, if any: "op1 first" (40_step_cycle.md
R106). -/
def Instr.firstIllegal (i : Instr) : Option Byte := i.regOperands.find? fun b => !legalReg b

/-- Decode the instruction at the head of `bytes`, under the opcode map `m`; the rest of the bytes
comes back with it. The checks stand in the order of 40_step_cycle.md R108. -/
def decodeWith (m : OpcodeMap) : List Byte → Except DecodeError (Instr × List Byte)
  | [] => .error (.missingByte 0)
  | opc :: bytes =>
    match lookup m opc with
    | none => .error (.unknownOpcode opc)
    | some n =>
      match takeOperands n bytes with
      | .error e => .error e
      | .ok (i, rest) =>
        match i.firstIllegal with
        | some b => .error (.badRegister b)
        | none => .ok (i, rest)

/-- The decoder under the default opcode map. -/
def decode (bytes : List Byte) : Except DecodeError (Instr × List Byte) := decodeWith defaultOpc bytes

/-- The bytes of an instruction, opcode first, operands in ascending order (30_encoding.md R80). -/
def encodeWith (m : OpcodeMap) : Instr → List Byte
  | .halt => [m .halt]
  | .loadImmediate r imm => [m .loadImmediate, r, imm]
  | .print r => [m .print, r]
  | .add ra rb => [m .add, ra, rb]
  | .multiply ra rb => [m .multiply, ra, rb]
  | .push r => [m .push, r]
  | .pop r => [m .pop, r]
  | .call r => [m .call, r]
  | .ret => [m .ret]
  | .compare ra rb => [m .compare, ra, rb]
  | .jump r => [m .jump, r]
  | .jumpIfEqual r => [m .jumpIfEqual, r]
  | .jumpIfNotEqual r => [m .jumpIfNotEqual, r]

/-- The encoder under the default opcode map. -/
def encode (i : Instr) : List Byte := encodeWith defaultOpc i

/-- The three bytes of an instruction whose first `nbits` bits are those of `w` and whose other bits
are 0: the first byte in bits 7 to 0, the second in 15 to 8, the third in 23 to 16 (DEDUCED,
assumption 21: the table's numbering, first byte at the lowest address). -/
def wordBytes (nbits w : Nat) : List Byte :=
  let v := w % 2 ^ nbits
  [BitVec.ofNat 8 v, BitVec.ofNat 8 (v / 256), BitVec.ofNat 8 (v / 65536)]

/-- The instruction the decoder reads from the table word `w`. -/
def decodeTableWord (nbits w : Nat) : Option Instr :=
  match decode (wordBytes nbits w) with
  | .ok (i, _) => some i
  | .error _ => none

end Sys2Proof
end

