-- ==== Sys2Proof/Machine/Fetch.lean ====
section
/-! DEFINITION. Fetching an instruction's bytes and storing one where the next fetch finds it, and the
error each failed fetch or decode raises (spec/40_step_cycle.md R102, R104; 60_exceptions.md R242 to
R244). -/

namespace Sys2Proof.Machine

/-- The bytes of memory at the program counter and after it, up to three, as many as exist: an address
above 255 has no byte (40_step_cycle.md R102, R104). Reading has no side effect (20_memory.md R51), so
that bytes past the instruction's own are looked at changes nothing (DEDUCED, assumption 22). -/
def fetchBytes (s : State) : List Byte :=
  ([s.pc.toNat, s.pc.toNat + 1, s.pc.toNat + 2].filter fun a => decide (a < Config.memSize)).map
    s.mem.read

/-- The error a failed decode raises at `pc`: a byte that is not there is an AddressError at its address
(40_step_cycle.md R102, R104), the others report their byte (R103, R106). -/
def fetchError (pc : Nat) : DecodeError → CoreError
  | .missingByte k => .address (pc + k)
  | .unknownOpcode b => .unknownOpcode b
  | .badRegister b => .register b

/-- Store bytes at consecutive addresses from `a` up; those past address 255 have no cell and are
dropped. -/
def storeBytes : Memory → Nat → List Byte → Memory
  | m, _, [] => m
  | m, a, v :: rest =>
    storeBytes (if a < Config.memSize then m.write a v else m) (a + 1) rest

end Sys2Proof.Machine
end

