-- ==== Sys2Proof/Machine/Step.lean ====
section
/-! DEFINITION. One step: one pass of the dispatch loop (spec/40_step_cycle.md R100, R101), for any opcode
map and for the default one. -/

namespace Sys2Proof.Machine

/-- One step under the opcode map `m`. In RUNNING: fetch, decode and validate, then execute, or raise the
first error found (40_step_cycle.md R100, R108). In the other run states no step is defined
(40_step_cycle.md R101; assumption 14). -/
def stepWith (m : OpcodeMap) (s : State) : Result :=
  match s.runState with
  | .loading => .fault .loading
  | .halted => .fault .halted
  | .faulted => .fault .faulted
  | .running =>
    match decodeWith m (fetchBytes s) with
    | .error e => settle s (.error (fetchError s.pc.toNat e))
    | .ok (i, _) => exec i s

/-- One step of the machine, under the default opcode map. -/
def step (s : State) : Host.Outcome State Fault Refusal := stepWith defaultOpc s

/-- `s` with the table word `w` stored at its program counter, as a loaded and started program: what
the loader and `start` do (70_reset_and_hazards.md R284, R286; DEDUCED, assumptions 15 and 21). -/
def State.withFetchWord (s : State) (nbits w : Nat) : State :=
  { s with
    mem := storeBytes s.mem s.pc.toNat (wordBytes nbits w)
    runState := .running
    progLoaded := true }

end Sys2Proof.Machine
end

