-- ==== Sys2Proof/Laws/Decode.lean ====
section
/-! SUPPORT. The laws of the opcode table under any map, and the inversion of the decoder. -/

namespace Sys2Proof

theorem Mnemonic.mem_all (n : Mnemonic) : n ∈ Mnemonic.all := by cases n <;> decide

/-- What the table answers is what the map encodes so. -/
theorem lookup_some {m : OpcodeMap} {b : Byte} {n : Mnemonic} (h : lookup m b = some n) : m n = b := by
  simpa using List.find?_some h

/-- The table has no row for a byte exactly when the map has no such value. -/
theorem lookup_none {m : OpcodeMap} {b : Byte} : lookup m b = none ↔ ∀ n, m n ≠ b := by
  simp only [lookup, List.find?_eq_none, decide_eq_true_eq]
  exact ⟨fun h n => h n (Mnemonic.mem_all n), fun h n _ => h n⟩

/-- Under an injective map the table finds each operation by its own byte. -/
theorem lookup_encode {m : OpcodeMap} (hm : m.Legal) (n : Mnemonic) : lookup m (m n) = some n := by
  cases h : lookup m (m n) with
  | none => exact absurd rfl (lookup_none.1 h n)
  | some k => rw [hm.1 k n (lookup_some h)]

/-- The default map meets both constraints (30_encoding.md R87). -/
theorem defaultOpc_legal : OpcodeMap.Legal defaultOpc := by
  constructor
  · intro a b; cases a <;> cases b <;> decide
  · intro a; cases a <;> decide

/-- "An instruction is 1, 2 or 3 bytes" (30_encoding.md R80). -/
theorem Instr.length_bounds (i : Instr) : 1 ≤ i.length ∧ i.length ≤ 3 := by
  cases i <;> simp [Instr.length, Instr.mnemonic, arity]

/-- An instruction has an illegal register operand exactly when it is not well formed. -/
theorem Instr.firstIllegal_eq_none {i : Instr} : i.firstIllegal = none ↔ i.wf = true := by
  simp [Instr.firstIllegal, Instr.wf, List.find?_eq_none, List.all_eq_true]

/-- Decoding inverted: the opcode is in the table, its operand bytes are there, and the instruction is
well formed. -/
theorem decodeWith_ok {m : OpcodeMap} {bs rest : List Byte} {i : Instr}
    (h : decodeWith m bs = .ok (i, rest)) :
    ∃ opc tail n, bs = opc :: tail ∧ lookup m opc = some n ∧ takeOperands n tail = .ok (i, rest) ∧
      i.wf = true := by
  cases bs with
  | nil => simp [decodeWith] at h
  | cons opc tail =>
    cases hl : lookup m opc with
    | none => simp [decodeWith, hl] at h
    | some n =>
      cases ht : takeOperands n tail with
      | error e => simp [decodeWith, hl, ht] at h
      | ok p =>
        obtain ⟨j, rest'⟩ := p
        cases hf : j.firstIllegal with
        | some b => simp [decodeWith, hl, ht, hf] at h
        | none =>
          simp only [decodeWith, hl, ht, hf, Except.ok.injEq, Prod.mk.injEq] at h
          obtain ⟨rfl, rfl⟩ := h
          exact ⟨opc, tail, n, rfl, hl, ht, Instr.firstIllegal_eq_none.1 hf⟩

/-- The operand bytes taken are those of an instruction of the operation asked for. -/
theorem takeOperands_mnemonic {n : Mnemonic} {bs rest : List Byte} {i : Instr}
    (h : takeOperands n bs = .ok (i, rest)) : i.mnemonic = n := by
  cases n <;> rcases bs with _ | ⟨a, _ | ⟨b, tl⟩⟩ <;>
    simp [takeOperands, oneOperand, twoOperands] at h <;> obtain ⟨rfl, -⟩ := h <;> rfl

end Sys2Proof
end

