-- ==== Sys2Proof/Laws/PerInstr.lean ====
section
/-! SUPPORT. Laws of every instruction as encoded bytes, one lemma per constructor: the first byte is
its operation's opcode, and the number of bytes is the instruction's length (spec/30_encoding.md R80,
R84). -/

namespace Sys2Proof.Laws.EncodedShape

/-- Under every opcode map the instruction's bytes start with its opcode, and are as many as its
length, which is 1 to 3. -/
def Statement (i : Instr) : Prop :=
  ∀ m : OpcodeMap, (encodeWith m i).head? = some (m i.mnemonic) ∧
    (encodeWith m i).length = i.length ∧ 1 ≤ i.length ∧ i.length ≤ 3

theorem halt : Statement .halt := fun _ => ⟨rfl, rfl, Instr.length_bounds _⟩
theorem loadImmediate (r imm : Byte) : Statement (.loadImmediate r imm) :=
  fun _ => ⟨rfl, rfl, Instr.length_bounds _⟩
theorem print (r : Byte) : Statement (.print r) := fun _ => ⟨rfl, rfl, Instr.length_bounds _⟩
theorem add (ra rb : Byte) : Statement (.add ra rb) := fun _ => ⟨rfl, rfl, Instr.length_bounds _⟩
theorem multiply (ra rb : Byte) : Statement (.multiply ra rb) :=
  fun _ => ⟨rfl, rfl, Instr.length_bounds _⟩
theorem push (r : Byte) : Statement (.push r) := fun _ => ⟨rfl, rfl, Instr.length_bounds _⟩
theorem pop (r : Byte) : Statement (.pop r) := fun _ => ⟨rfl, rfl, Instr.length_bounds _⟩
theorem call (r : Byte) : Statement (.call r) := fun _ => ⟨rfl, rfl, Instr.length_bounds _⟩
theorem ret : Statement .ret := fun _ => ⟨rfl, rfl, Instr.length_bounds _⟩
theorem compare (ra rb : Byte) : Statement (.compare ra rb) :=
  fun _ => ⟨rfl, rfl, Instr.length_bounds _⟩
theorem jump (r : Byte) : Statement (.jump r) := fun _ => ⟨rfl, rfl, Instr.length_bounds _⟩
theorem jumpIfEqual (r : Byte) : Statement (.jumpIfEqual r) :=
  fun _ => ⟨rfl, rfl, Instr.length_bounds _⟩
theorem jumpIfNotEqual (r : Byte) : Statement (.jumpIfNotEqual r) :=
  fun _ => ⟨rfl, rfl, Instr.length_bounds _⟩

end Sys2Proof.Laws.EncodedShape
end

