-- ==== Sys2Proof/Machine/Blocks.lean ====
section
/-! DEFINITION. The blocks of the core as combinational hardware: the decoder's control table, the fetch
address, the register file's write ports, the stack manager, the program counter's selector
(spec/40_step_cycle.md R105, 44_control_transfer.md R170, 49_core_blocks.md R202 to R210; the `alu`
block is in Machine/Alu.lean). Machine/Clocked.lean joins them. -/

namespace Sys2Proof.Machine

/-- Which block does the work (40_step_cycle.md R105, column class). -/
inductive OpClass where
  | sys
  | move
  | out
  | alu
  | stack
  | flow
deriving DecidableEq, Repr

/-- The stack operation (40_step_cycle.md R105, column stack). -/
inductive StackOp where
  | noStack
  | push
  | pop
deriving DecidableEq, Repr

/-- The program counter's selector (44_control_transfer.md R170). -/
inductive PcSel where
  | hold
  | plus2
  | plus3
  | reg
  | popped
deriving DecidableEq, Repr

/-- The decoder's output for an opcode (40_step_cycle.md R105) but for `arity` (Sys2Proof/Decode.lean)
and `pc_sel` (`pcSel`, which depends on a flag). -/
structure Control where
  op1IsReg : Bool
  op2IsReg : Bool
  opClass : OpClass
  aluOp : Option (BitVec 3)
  stackOp : StackOp
deriving DecidableEq, Repr

/-- The control table (40_step_cycle.md R105). -/
def controlOf : Mnemonic → Control
  | .halt => ⟨false, false, .sys, none, .noStack⟩
  | .loadImmediate => ⟨true, false, .move, none, .noStack⟩
  | .print => ⟨true, false, .out, none, .noStack⟩
  | .add => ⟨true, true, .alu, some aluAdd, .noStack⟩
  | .multiply => ⟨true, true, .alu, some aluMul, .noStack⟩
  | .push => ⟨true, false, .stack, none, .push⟩
  | .pop => ⟨true, false, .stack, none, .pop⟩
  | .call => ⟨true, false, .flow, none, .push⟩
  | .ret => ⟨false, false, .flow, none, .pop⟩
  | .compare => ⟨true, true, .alu, some aluCmp, .noStack⟩
  | .jump => ⟨true, false, .flow, none, .noStack⟩
  | .jumpIfEqual => ⟨true, false, .flow, none, .noStack⟩
  | .jumpIfNotEqual => ⟨true, false, .flow, none, .noStack⟩

/-- `pc_sel`, given `FL[0]` (40_step_cycle.md R105, column pc_sel). -/
def pcSel (n : Mnemonic) (eq : Bool) : PcSel :=
  match n with
  | .halt => .hold
  | .loadImmediate => .plus3
  | .print => .plus2
  | .add => .plus3
  | .multiply => .plus3
  | .push => .plus2
  | .pop => .plus2
  | .call => .reg
  | .ret => .popped
  | .compare => .plus3
  | .jump => .reg
  | .jumpIfEqual => if eq then .reg else .plus2
  | .jumpIfNotEqual => if eq then .plus2 else .reg

/-- The program counter's next value (44_control_transfer.md R170, 49_core_blocks.md R209). -/
def nextPc (sel : PcSel) (pc : PcWord) (target popped : Byte) : PcWord :=
  match sel with
  | .hold => pc
  | .plus2 => pc + 2
  | .plus3 => pc + 3
  | .reg => target.setWidth 9
  | .popped => popped.setWidth 9

/-- The write ports of the register file at a clock edge: the named stack-pointer and flags ports and
the general port, which wins where it writes the same register (49_core_blocks.md R203). -/
structure RegPorts where
  general : Option (RegIdx × Byte)
  sp : Option Byte
  flags : Option Byte
deriving DecidableEq, Repr

/-- Write one register if the port is enabled. -/
def portWrite (x : Vector Byte 8) : Option (RegIdx × Byte) → Vector Byte 8
  | none => x
  | some (i, v) => x.set i v

/-- The registers after the clock edge (49_core_blocks.md R203). -/
def regFileNext (x : Vector Byte 8) (p : RegPorts) : Vector Byte 8 :=
  portWrite (portWrite (portWrite x (p.sp.map fun v => (Config.spIdx, v)))
    (p.flags.map fun v => (Config.flIdx, v))) p.general

/-- The stack manager's outputs (49_core_blocks.md R205). -/
structure StackOut where
  /-- `s_addr`, an integer: `SP - 1` for a push, `SP` for a pop; else the model's choice (below). -/
  addr : Int
  /-- `s_we` with `s_wdata`. -/
  write : Option Byte
  /-- `sp_we` with `sp_wdata`. -/
  spWrite : Option Byte
  /-- `s_err` with `s_err_val`. -/
  err : Option Int
deriving DecidableEq, Repr

/-- The stack manager: the new stack pointer is computed as an integer, and on an error nothing is
written (49_core_blocks.md R205, 43_stack.md R151 to R153). The spec gives `s_addr` for a push and a pop
only: with no stack operation the model drives `SP` (DESIGN CHOICE, assumption 25). -/
def stackManager (op : StackOp) (sp pushVal : Byte) : StackOut :=
  match op with
  | .noStack => { addr := sp.toNat, write := none, spWrite := none, err := none }
  | .push =>
    let a : Int := (sp.toNat : Int) - 1
    if a < 0 then { addr := a, write := none, spWrite := none, err := some a }
    else { addr := a, write := some pushVal, spWrite := some (BitVec.ofInt 8 a), err := none }
  | .pop =>
    let n : Int := (sp.toNat : Int) + 1
    if 255 < n then { addr := sp.toNat, write := none, spWrite := none, err := some n }
    else { addr := sp.toNat, write := none, spWrite := some (BitVec.ofInt 8 n), err := none }

/-- The register a 3-bit index names: the low bits of an operand byte the decoder has accepted
(49_core_blocks.md R203, R210). -/
def regIndex3 (b : Byte) : RegIdx := ⟨b.toNat % 8, Nat.mod_lt _ (by decide)⟩

/-- `reg_err` with `reg_err_val`: the first operand in a register position that is 8 or more
(49_core_blocks.md R210, 40_step_cycle.md R106). -/
def regError (n : Mnemonic) (op1 op2 : Byte) : Option CoreError :=
  if (controlOf n).op1IsReg && decide (7 < op1.toNat) then some (.register op1)
  else if (controlOf n).op2IsReg && decide (7 < op2.toNat) then some (.register op2)
  else none

end Sys2Proof.Machine
end

