-- ==== Sys2Proof/Machine/Environment.lean ====
section
/-! DEFINITION. What the environment does to the core and sees of it on the instruction view: reset, the
loader, `start`, the status pins, the text form of printed values (spec/70_reset_and_hazards.md R280 to
R288, 49_core_blocks.md R207, R215, 41_system_move.md R121, R124). "What is not in the table is not
possible" (70_reset_and_hazards.md R288). -/

namespace Sys2Proof.Machine

/-- The machine after reset with memory content `memInit`, the parameter MEM_INIT (00_scope.md R6,
10_state.md R42; assumption 3). -/
def State.resetWith (memInit : Nat → Byte) : State :=
  { State.reset with mem := Memory.ofFun memInit Config.memSize }

/-- One write of the loader: in LOADING it writes the cell and sets `prog_loaded`; in any other run
state it is ignored (49_core_blocks.md R215, 70_reset_and_hazards.md R284). The address is 8 bits, so
it is always in range. -/
def loaderWrite (s : State) (a v : Byte) : State :=
  match s.runState with
  | .loading => { s with mem := s.mem.write a.toNat v, progLoaded := true }
  | .running => s
  | .halted => s
  | .faulted => s

/-- The loader's "sequence of (address, byte) pairs", in order (70_reset_and_hazards.md R284). -/
def loadPairs : State → List (Byte × Byte) → State
  | s, [] => s
  | s, (a, v) :: rest => loadPairs (loaderWrite s a v) rest

/-- The `start` input (70_reset_and_hazards.md R286, the spec's decision D16): in LOADING the run begins,
or ends at once when nothing was loaded; in any other run state it is ignored. -/
def hostStart (s : State) : State :=
  match s.runState with
  | .loading => { s with runState := if s.progLoaded then .running else .halted }
  | .running => s
  | .halted => s
  | .faulted => s

/-- Everything outside that changes the machine (70_reset_and_hazards.md R288). -/
inductive HostAction where
  /-- Reset, at any time (R280, R281). -/
  | reset
  /-- The loader writes a byte (R284). -/
  | load (a v : Byte)
  /-- `start` (R286). -/
  | start
deriving DecidableEq, Repr

/-- What a host action does, for a machine with memory content `memInit` after reset. -/
def hostAct (memInit : Nat → Byte) (s : State) : HostAction → State
  | .reset => State.resetWith memInit
  | .load a v => loaderWrite s a v
  | .start => hostStart s

/-- The code of `run_state` (10_state.md R36). -/
def RunState.code : RunState → BitVec 2
  | .loading => 0b00
  | .running => 0b01
  | .halted => 0b10
  | .faulted => 0b11

/-- The code of `err_cause` (10_state.md R37, 60_exceptions.md R241). -/
def ErrCause.code : ErrCause → BitVec 3
  | .noError => 0
  | .addressError => 1
  | .registerError => 2
  | .unknownOpcodeError => 3
  | .fatalError => 4

/-- The `halted` pin (49_core_blocks.md R200). -/
def State.haltedPin (s : State) : Bool := s.runState = .halted

/-- The `faulted` pin (49_core_blocks.md R200). -/
def State.faultedPin (s : State) : Bool := s.runState = .faulted

/-- The exit status of a run (41_system_move.md R121, 60_exceptions.md R251). -/
def State.exitStatus (s : State) : BitVec 3 := s.errCause.code

/-- The text line the sink makes of a printed value: an unsigned decimal numeral and one newline
(41_system_move.md R124, the spec's decision D17; assumption 12). The core emits the byte. -/
def sinkLine (v : Byte) : String := toString v.toNat ++ "\n"

end Sys2Proof.Machine
end

