-- ==== Sys2Proof/Machine/Clocked.lean ====
section
/-! DEFINITION. The clocked reference structure: the same machine clock by clock, with its ports, its
phases, the loader port, the output handshake and the optional trace port (spec/49_core_blocks.md R200
to R216; every port, phase and clock of it is the spec's own choice, decisions D20, D22, D23, D24 and
D26; assumptions 17, 18 and 23). `step` does not use this file; the claim that the two views agree is
R216. -/

namespace Sys2Proof.Machine

/-- The phases of one instruction (49_core_blocks.md R212). -/
inductive Phase where
  | fetch
  | op1
  | op2
  | exec
deriving DecidableEq, Repr

/-- The instruction register (49_core_blocks.md R202). -/
structure IR where
  opc : Byte
  op1 : Byte
  op2 : Byte
deriving DecidableEq, Repr

/-- What the clocked structure stores: the architectural state, the phase, the instruction register,
and whether this EXEC phase has already had a clock (for the trace strobe, 49_core_blocks.md R208). -/
structure CState where
  arch : State
  phase : Phase
  ir : IR
  waited : Bool
deriving DecidableEq, Repr

/-- The input pins (49_core_blocks.md R200). -/
structure Inputs where
  rst : Bool
  ldWe : Bool
  ldAddr : Byte
  ldData : Byte
  start : Bool
  outReady : Bool
deriving DecidableEq, Repr

/-- After reset (49_core_blocks.md R200, 10_state.md R42: the instruction register and the phase are
"don't care; written before use"; DESIGN CHOICE, assumption 23). -/
def CState.reset : CState :=
  { arch := State.reset, phase := .fetch, ir := ⟨0, 0, 0⟩, waited := false }

/-- `f_addr`, an integer: `pc`, `pc + 1` or `pc + 2` by phase (49_core_blocks.md R202). The spec gives it,
and so `f_addr_err`, for the fetch phases only: in EXEC the model drives `pc`, which nothing uses there
(DESIGN CHOICE, assumption 25). -/
def fetchAddr (c : CState) : Nat :=
  match c.phase with
  | .fetch => c.arch.pc.toNat
  | .op1 => c.arch.pc.toNat + 1
  | .op2 => c.arch.pc.toNat + 2
  | .exec => c.arch.pc.toNat

/-- `f_addr_err` (49_core_blocks.md R202). -/
def fetchAddrErr (c : CState) : Bool := decide (255 < fetchAddr c)

/-- `mem_rdata` in a fetch phase, the byte at `f_addr[7:0]` (49_core_blocks.md R214). -/
def fetchData (c : CState) : Byte := c.arch.mem.read (fetchAddr c % 256)

/-- What EXEC computes for the operation `n`, before the clock edge (49_core_blocks.md R203 to R211). -/
structure ExecOut where
  /-- The first error in the order of 40_step_cycle.md R108. -/
  err : Option CoreError
  /-- The register file's write ports. -/
  ports : RegPorts
  /-- The stack manager's outputs. -/
  stack : StackOut
  /-- The next program counter. -/
  pc : PcWord
  /-- `out_data`, offered by PRINT. -/
  outData : Option Byte
  /-- HALT. -/
  halts : Bool
deriving DecidableEq, Repr

/-- `push_val`: the register for PUSH, `(pc + 2)[7:0]` for CALL (49_core_blocks.md R205). The other
operations push nothing; the spec gives the input no value there, and the model's is used by nothing
(DESIGN CHOICE, assumption 25). -/
def pushValue (n : Mnemonic) (pc : PcWord) (ra : Byte) : Byte :=
  match n with
  | .call => BitVec.ofNat 8 (pc.toNat + 2)
  | _ => ra

/-- CALL's return-address check (49_core_blocks.md R211, 44_control_transfer.md R172). -/
def callError (n : Mnemonic) (pc : PcWord) : Option CoreError :=
  if n = .call ∧ 255 < pc.toNat + 2 then some (.address (pc.toNat + 2)) else none

/-- The ALU's outputs, or none where the operation selects no ALU function (49_core_blocks.md R204). -/
def aluBlock (n : Mnemonic) (ra rb : Byte) : Option (Except CoreError AluOut) :=
  (controlOf n).aluOp.map fun sel => alu sel ra rb

/-- `alu_err` (49_core_blocks.md R204). -/
def aluError : Option (Except CoreError AluOut) → Option CoreError
  | some (.error e) => some e
  | some (.ok _) => none
  | none => none

/-- The general write port: the literal for LOAD_IMMEDIATE, the ALU's result for ADD and MULTIPLY, the
popped byte for POP (49_core_blocks.md R203). -/
def generalPort (n : Mnemonic) (ra : RegIdx) (imm popVal : Byte)
    (o : Option (Except CoreError AluOut)) : Option (RegIdx × Byte) :=
  match n, o with
  | .loadImmediate, _ => some (ra, imm)
  | .add, some (.ok r) => some (ra, r.result)
  | .multiply, some (.ok r) => some (ra, r.result)
  | .pop, _ => some (ra, popVal)
  | _, _ => none

/-- The flags port: COMPARE writes the three bits, widened with zeros (49_core_blocks.md R203, 42_alu.md
R130). -/
def flagsPort (n : Mnemonic) (o : Option (Except CoreError AluOut)) : Option Byte :=
  match n, o with
  | .compare, some (.ok r) => some (r.cmp.setWidth 8)
  | _, _ => none

/-- The jump target: `ra_data`, but the decremented stack pointer for CALL naming register 7
(49_core_blocks.md R209). -/
def targetValue (n : Mnemonic) (i : RegIdx) (ra : Byte) (spWrite : Option Byte) : Byte :=
  match n, spWrite with
  | .call, some v => if i = Config.spIdx then v else ra
  | _, _ => ra

/-- The EXEC phase's combinational outputs (49_core_blocks.md R211, R212). -/
def execOut (n : Mnemonic) (c : CState) : ExecOut :=
  let s := c.arch
  let i := regIndex3 c.ir.op1
  let ra := s.x[i]
  let rb := s.x[regIndex3 c.ir.op2]
  let st := stackManager (controlOf n).stackOp s.sp (pushValue n s.pc ra)
  let popVal := s.mem.read s.sp.toNat
  let o := aluBlock n ra rb
  { err := (regError n c.ir.op1 c.ir.op2).or
      ((callError n s.pc).or ((st.err.map .address).or (aluError o)))
    ports := { general := generalPort n i c.ir.op2 popVal o, sp := st.spWrite, flags := flagsPort n o }
    stack := st
    pc := nextPc (pcSel n s.eqFlag) s.pc (targetValue n i ra st.spWrite) popVal
    outData := if n = .print then some ra else none
    halts := n = .halt }

/-- An error: none of the instruction's writes, the error record, FAULTED (49_core_blocks.md R211). The
spec gives the phase no value in FAULTED; the model leaves FETCH there (DESIGN CHOICE, assumption 23). -/
def faultEdge (c : CState) (e : CoreError) : CState :=
  { c with arch := c.arch.raise e, phase := .fetch, waited := false }

/-- All the instruction's writes at the clock edge that ends EXEC (49_core_blocks.md R211, R212). The next
phase is FETCH; after HALT the spec gives the phase no value, and the model leaves FETCH there too
(DESIGN CHOICE, assumption 23). -/
def commitEdge (c : CState) (o : ExecOut) : CState :=
  { c with
    arch := { c.arch with
      x := regFileNext c.arch.x o.ports
      mem := match o.stack.write with
        | some v => c.arch.mem.write o.stack.addr.toNat v
        | none => c.arch.mem
      pc := o.pc
      out := match o.outData with
        | some v => c.arch.out ++ [v]
        | none => c.arch.out
      runState := if o.halts then .halted else c.arch.runState }
    phase := .fetch
    waited := false }

/-- The phase after an opcode byte (49_core_blocks.md R212). -/
def afterFetch (n : Mnemonic) : Phase := if 1 ≤ arity n then .op1 else .exec

/-- The phase after the first operand byte (49_core_blocks.md R212). -/
def afterOp1 (n : Mnemonic) : Phase := if arity n = 2 then .op2 else .exec

/-- The instruction register after a clock whose `f_addr_err` is 0: the fetched byte stands in the field
of the phase, also where the decoder then finds it unknown (49_core_blocks.md R202: `f_addr_err` is the
only condition). EXEC fetches nothing. -/
def latchedIR (c : CState) : IR :=
  match c.phase with
  | .fetch => { c.ir with opc := fetchData c }
  | .op1 => { c.ir with op1 := fetchData c }
  | .op2 => { c.ir with op2 := fetchData c }
  | .exec => c.ir

/-- One clock in RUNNING (49_core_blocks.md R212). In the phases after FETCH the decoder sees `IR.opc`,
and FETCH has already refused an unknown one: what OP1 and EXEC do with an unknown `IR.opc`, which no run
from reset has there, is the model's choice (DESIGN CHOICE, assumption 23). -/
def runningClock (m : OpcodeMap) (ins : Inputs) (c : CState) : CState :=
  match c.phase with
  | .fetch =>
    if fetchAddrErr c then faultEdge c (.address (fetchAddr c))
    else match lookup m (fetchData c) with
      | none => faultEdge { c with ir := latchedIR c } (.unknownOpcode (fetchData c))
      | some n => { c with ir := latchedIR c, phase := afterFetch n }
  | .op1 =>
    if fetchAddrErr c then faultEdge c (.address (fetchAddr c))
    else match lookup m c.ir.opc with
      | none => faultEdge { c with ir := latchedIR c } (.unknownOpcode c.ir.opc)
      | some n => { c with ir := latchedIR c, phase := afterOp1 n }
  | .op2 =>
    if fetchAddrErr c then faultEdge c (.address (fetchAddr c))
    else { c with ir := latchedIR c, phase := .exec }
  | .exec =>
    match lookup m c.ir.opc with
    | none => faultEdge c (.unknownOpcode c.ir.opc)
    | some n =>
      match (execOut n c).err with
      | some e => faultEdge c e
      | none =>
        if (execOut n c).outData.isSome && !ins.outReady then { c with waited := true }
        else commitEdge c (execOut n c)

/-- One clock in LOADING: the loader port, then `start` (49_core_blocks.md R215,
70_reset_and_hazards.md R286). A byte loaded in the clock of `start` counts as loaded before it (DESIGN
CHOICE, assumption 17: the spec does not order the two). -/
def loadingClock (ins : Inputs) (s : State) : State :=
  let s' := if ins.ldWe then loaderWrite s ins.ldAddr ins.ldData else s
  if ins.start then hostStart s' else s'

/-- One clock of the core, `rst` first (49_core_blocks.md R200, 70_reset_and_hazards.md R281). -/
def clock (m : OpcodeMap) (ins : Inputs) (c : CState) : CState :=
  if ins.rst then CState.reset
  else match c.arch.runState with
    | .loading => { c with arch := loadingClock ins c.arch, phase := .fetch, waited := false }
    | .running => runningClock m ins c
    | .halted => c
    | .faulted => c

/-- `n` clocks, with the input pins of clock `k` given by `ins k`. -/
def clocks (m : OpcodeMap) (ins : Nat → Inputs) : Nat → CState → CState
  | 0, c => c
  | n + 1, c => clock m (ins n) (clocks m ins n c)

/-! ### The output pins -/

/-- The memory port: address, write enable and data (49_core_blocks.md R200, R214). -/
structure MemPort where
  addr : Byte
  we : Bool
  wdata : Byte
deriving DecidableEq, Repr

/-- What EXEC drives on the memory port: the stack manager's access (49_core_blocks.md R214), the write
suppressed on any error (R211). Where it writes nothing the spec gives `mem_wdata` no value, nor
`mem_addr` where the instruction has no stack operation: the model drives data 0 and the stack manager's
address, and 0 for an `IR.opc` no run has (DESIGN CHOICE, assumption 25). -/
def execMemPort (m : OpcodeMap) (c : CState) : MemPort :=
  match lookup m c.ir.opc with
  | none => ⟨0, false, 0⟩
  | some n =>
    match (execOut n c).err, (execOut n c).stack.write with
    | none, some v => ⟨BitVec.ofInt 8 (execOut n c).stack.addr, true, v⟩
    | _, _ => ⟨BitVec.ofInt 8 (execOut n c).stack.addr, false, 0⟩

/-- Who owns the memory port (49_core_blocks.md R201, R214). The spec gives `mem_wdata` no value in the
fetch phases, and neither `mem_addr` nor `mem_wdata` a value in HALTED and FAULTED, where "the core
makes no access": the model drives 0 (DESIGN CHOICE, assumption 25). -/
def memPort (m : OpcodeMap) (ins : Inputs) (c : CState) : MemPort :=
  match c.arch.runState with
  | .loading => ⟨ins.ldAddr, ins.ldWe, ins.ldData⟩
  | .halted => ⟨0, false, 0⟩
  | .faulted => ⟨0, false, 0⟩
  | .running =>
    match c.phase with
    | .exec => execMemPort m c
    | .fetch => ⟨BitVec.ofNat 8 (fetchAddr c), false, 0⟩
    | .op1 => ⟨BitVec.ofNat 8 (fetchAddr c), false, 0⟩
    | .op2 => ⟨BitVec.ofNat 8 (fetchAddr c), false, 0⟩

/-- `out_valid` with `out_data`: offered in the EXEC phase of a PRINT that raised nothing, and at no
other time (49_core_blocks.md R206). -/
def outPort (m : OpcodeMap) (c : CState) : Option Byte :=
  match c.arch.runState, c.phase with
  | .running, .exec =>
    match lookup m c.ir.opc with
    | none => none
    | some n => if (execOut n c).err.isNone then (execOut n c).outData else none
  | _, _ => none

/-- The status and diagnostic pins (49_core_blocks.md R200, R207). The port list of R200 has no pin for
`prog_loaded`, which 10_state.md R35 counts among the five items the host can observe on pins: the last
field is that pin (DEDUCED, assumption 26). -/
structure StatusPins where
  runState : BitVec 2
  halted : Bool
  faulted : Bool
  errCause : BitVec 3
  errPc : PcWord
  errVal : ErrWord
  dbgPc : PcWord
  dbgReg : Vector Byte 8
  progLoaded : Bool
deriving DecidableEq, Repr

/-- What the host reads (49_core_blocks.md R207, 60_exceptions.md R251, 10_state.md R35). -/
def statusPins (s : State) : StatusPins :=
  { runState := s.runState.code, halted := s.haltedPin, faulted := s.faultedPin
    errCause := s.errCause.code, errPc := s.errPc, errVal := s.errVal, dbgPc := s.pc, dbgReg := s.x
    progLoaded := s.progLoaded }

/-- One trace record (49_core_blocks.md R208). -/
structure TraceRecord where
  pc : PcWord
  opc : Byte
  op1 : Byte
  op2 : Byte
  x : Vector Byte 8
deriving DecidableEq, Repr

/-- The trace port, for `en` the value of TRACE_EN: one record at the first clock of every EXEC phase,
operand bytes the instruction does not have shown as 0 (49_core_blocks.md R208, the spec's decision
D24; assumption 18). -/
def traceRecord (en : Bool) (m : OpcodeMap) (c : CState) : Option TraceRecord :=
  match c.arch.runState, c.phase, lookup m c.ir.opc with
  | .running, .exec, some n =>
    if en && !c.waited then
      some { pc := c.arch.pc, opc := c.ir.opc, op1 := if 1 ≤ arity n then c.ir.op1 else 0
             op2 := if arity n = 2 then c.ir.op2 else 0, x := c.arch.x }
    else none
  | _, _, _ => none

/-- This hardware's trace port: absent (00_scope.md R6, TRACE_EN = 0). -/
def tracePort (m : OpcodeMap) (c : CState) : Option TraceRecord := traceRecord Config.traceEn m c

end Sys2Proof.Machine
end

