-- ==== Sys2Proof/Safety.lean ====
section
/-! DEFINITION. The terms claims are stated in: the invariant of the machine, the states a run can reach,
and the registers each instruction reads and writes (spec/10_state.md R25, R27, R32, R37 to R39;
60_exceptions.md R242, R250, R252). -/

namespace Sys2Proof.Machine

/-- The value recorded with an error is one the spec gives that error (60_exceptions.md R241, R242;
10_state.md R39). FatalError is never recorded (42_alu.md R135). -/
def errRecordLegal (c : ErrCause) (v : Int) : Prop :=
  match c with
  | .noError => v = 0
  | .addressError => v = -1 ∨ v = 256
  | .registerError => 8 ≤ v ∧ v ≤ 255
  | .unknownOpcodeError => 0 ≤ v ∧ v ≤ 255
  | .fatalError => False

/-- What holds of the machine between steps. -/
structure Inv (s : State) : Prop where
  /-- "The largest value `pc` reaches is 256" (10_state.md R27). -/
  pcBound : s.pc.toNat ≤ 256
  /-- Memory is in canonical form. -/
  memWf : s.mem.wf = true
  /-- Only the 256 cells are listed (10_state.md R33). -/
  memRange : s.mem.inRange = true
  /-- An error is recorded exactly in FAULTED (10_state.md R37). -/
  faultedIff : s.runState = .faulted ↔ s.errCause ≠ .noError
  /-- "err_pc ... is also the value `pc` still has. It is 0 otherwise" (10_state.md R38). -/
  errPcIs : s.errPc = if s.runState = .faulted then s.pc else 0
  /-- The recorded value is one the spec gives that error (10_state.md R39). -/
  errValLegal : errRecordLegal s.errCause s.errVal.toInt
  /-- A running machine has been loaded (70_reset_and_hazards.md R286). -/
  loaded : s.runState = .running → s.progLoaded = true

/-- The states a machine with opcode map `m` and reset memory `memInit` can come to: reset, then host
actions and steps in any order (70_reset_and_hazards.md R287, R288). -/
inductive Reachable (m : OpcodeMap) (memInit : Nat → Byte) : State → Prop where
  | reset : Reachable m memInit (State.resetWith memInit)
  | host (s : State) (a : HostAction) : Reachable m memInit s → Reachable m memInit (hostAct memInit s a)
  | step (s t : State) : Reachable m memInit s → stepWith m s = .next t → Reachable m memInit t

/-- Every register but those listed is the same. -/
def sameRegsBut (rs : List RegIdx) (s t : State) : Prop := ∀ k : RegIdx, k ∉ rs → t.x[k] = s.x[k]

/-- Every byte of memory reads the same. -/
def sameMem (s t : State) : Prop := ∀ a : Nat, t.mem.read a = s.mem.read a

/-- The error record and `prog_loaded` are the same. -/
def sameRecord (s t : State) : Prop :=
  t.errCause = s.errCause ∧ t.errPc = s.errPc ∧ t.errVal = s.errVal ∧ t.progLoaded = s.progLoaded

/-- `run_state`, the error record and `prog_loaded` are the same. -/
def sameControl (s t : State) : Prop := t.runState = s.runState ∧ sameRecord s t

/-- The instruction has raised: `t` is `s` with the error `e` recorded and nothing else changed
(60_exceptions.md R250). -/
def raised (s t : State) (e : CoreError) : Prop :=
  t.x = s.x ∧ t.pc = s.pc ∧ t.mem = s.mem ∧ t.out = s.out ∧ t.progLoaded = s.progLoaded ∧
    t.runState = .faulted ∧ t.errCause = e.cause ∧ t.errPc = s.pc ∧ t.errVal = e.value

/-- Push the bytes of a list, the head first (43_stack.md R154). -/
def pushAll : State → List Byte → Except CoreError State
  | s, [] => .ok s
  | s, v :: vs =>
    match push s v with
    | .error e => .error e
    | .ok t => pushAll t vs

/-- Pop `n` bytes; the first popped is the head (43_stack.md R154). -/
def popAll : State → Nat → Except CoreError (List Byte × State)
  | s, 0 => .ok ([], s)
  | s, n + 1 =>
    match pop s with
    | .error e => .error e
    | .ok (v, t) =>
      match popAll t n with
      | .error e => .error e
      | .ok (vs, u) => .ok (v :: vs, u)

/-- The register a legal operand byte names, as a list; none for an illegal byte. -/
def regList (b : Byte) : List RegIdx := if h : b.toNat < 8 then [⟨b.toNat, h⟩] else []

/-- The registers an instruction writes (10_state.md R25, column writes). -/
def regWrites : Instr → List RegIdx
  | .halt => []
  | .loadImmediate r _ => regList r
  | .print _ => []
  | .add ra _ => regList ra
  | .multiply ra _ => regList ra
  | .push _ => [Config.spIdx]
  | .pop r => Config.spIdx :: regList r
  | .call _ => [Config.spIdx]
  | .ret => [Config.spIdx]
  | .compare _ _ => [Config.flIdx]
  | .jump _ => []
  | .jumpIfEqual _ => []
  | .jumpIfNotEqual _ => []

/-- The registers an instruction reads (10_state.md R25, column reads): the conditional jumps read their
target only when taken, which the flags register's bit 0 decides. -/
def regReads (s : State) : Instr → List RegIdx
  | .halt => []
  | .loadImmediate _ _ => []
  | .print r => regList r
  | .add ra rb => regList ra ++ regList rb
  | .multiply ra rb => regList ra ++ regList rb
  | .push r => Config.spIdx :: regList r
  | .pop _ => [Config.spIdx]
  | .call r => Config.spIdx :: regList r
  | .ret => [Config.spIdx]
  | .compare ra rb => regList ra ++ regList rb
  | .jump r => regList r
  | .jumpIfEqual r => Config.flIdx :: if s.eqFlag then regList r else []
  | .jumpIfNotEqual r => Config.flIdx :: if s.eqFlag then [] else regList r

end Sys2Proof.Machine
end

