-- ==== Sys2Proof/Certificates/Slice0/Obligations.lean ====
section
/-! DEFINITION. The statements for the provers. Each docstring names the rule it formalises; where a
clause rests on a decision the spec marks as its own (92_eei_decisions.md) or on a log entry of the
model, the docstring says so. -/

section

open Sys2Proof Sys2Proof.Machine

/-! ### Reset and the host -/

/-- What reset leaves (10_state.md R42, 70_reset_and_hazards.md R280). Only the stack pointer's 255 is the
source's; the rest are the spec's decisions D3, D4, D5, D16, D18, D19 (assumptions 2, 3, 4, 13). -/
def Obligations.ResetValues : Prop :=
  (∀ i : RegIdx, State.reset.x[i] = if i = 7 then 255 else 0) ∧
  State.reset.pc = 0 ∧ (∀ a : Nat, State.reset.mem.read a = 0) ∧ State.reset.out = [] ∧
  State.reset.runState = .loading ∧ State.reset.errCause = .noError ∧ State.reset.errPc = 0 ∧
  State.reset.errVal = 0 ∧ State.reset.progLoaded = false

/-- After reset every cell holds MEM_INIT, a parameter (10_state.md R42, the spec's decision D4; MEM_INIT = 0
gives `State.reset`, assumption 3), and the invariant holds, whatever MEM_INIT is. -/
def Obligations.ResetMeetsInvForEveryMemInit : Prop :=
  State.resetWith (fun _ => 0) = State.reset ∧ ∀ memInit : Nat → Byte,
    Inv (State.resetWith memInit) ∧
    ∀ a, a < 256 → (State.resetWith memInit).mem.read a = memInit a

/-- The loader writes cells in LOADING, in order: "the last write stands", cells it does not name keep
their byte, and any byte loaded sets `prog_loaded` (70_reset_and_hazards.md R284). `prog_loaded` is the
spec's decision D16 (assumption 13). -/
def Obligations.LoaderLastWriteStands : Prop :=
  ∀ (s : State) (ps : List (Byte × Byte)), s.runState = .loading → s.mem.wf = true →
    (∀ a : Byte, (loadPairs s ps).mem.read a.toNat =
      match ps.reverse.find? (fun p => p.1 = a) with
      | some p => p.2
      | none => s.mem.read a.toNat) ∧
    (loadPairs s ps).progLoaded = (s.progLoaded || !ps.isEmpty) ∧
    (loadPairs s ps).x = s.x ∧ (loadPairs s ps).pc = s.pc ∧ (loadPairs s ps).out = s.out ∧
    (loadPairs s ps).runState = .loading

/-- `start` in LOADING begins the run, or ends it cleanly when nothing was loaded; elsewhere `start` and
the loader are ignored (70_reset_and_hazards.md R286, 49_core_blocks.md R215; the spec's decisions D16
and D20, assumptions 13 and 15). -/
def Obligations.StartAndLoaderOnlyInLoading : Prop :=
  ∀ s : State,
    (s.runState = .loading → s.progLoaded = true → hostStart s = { s with runState := .running }) ∧
    (s.runState = .loading → s.progLoaded = false → hostStart s = { s with runState := .halted }) ∧
    (s.runState ≠ .loading → hostStart s = s ∧ ∀ a v, loaderWrite s a v = s)

/-- Host actions keep the invariant `Inv`: pc at most 256, memory canonical and within the 256 cells, the
error record and `prog_loaded` as the run state says (10_state.md R27, R33, R37, R38, R39,
70_reset_and_hazards.md R280, R284, R286). Its clauses rest on the form memory is held in (assumption 3)
and on the spec's decisions D2, D16, D18, D19 and D20 (assumptions 4, 13 and 15). -/
def Obligations.HostActionsKeepInv : Prop :=
  ∀ (memInit : Nat → Byte) (s : State) (a : HostAction), Inv s → Inv (hostAct memInit s a)

/-- From reset, loading an instruction's bytes at address 0 and giving `start` makes the very next step
run that instruction (70_reset_and_hazards.md R282, R286, R287; the spec's decisions D5 and D16,
assumptions 4 and 15). -/
def Obligations.LoadedInstructionRunsFirst : Prop :=
  ∀ (m : OpcodeMap) (memInit : Nat → Byte) (i : Instr), m.Legal → i.wf = true →
    let loaded := loadPairs (State.resetWith memInit)
      ((encodeWith m i).mapIdx fun k v => (BitVec.ofNat 8 k, v))
    stepWith m (hostStart loaded) = exec i (hostStart loaded) ∧
    (hostStart loaded).runState = .running ∧ (hostStart loaded).pc = 0

/-! ### Encoding and decoding -/

/-- One word of each of the 13 instructions, written out from 30_encoding.md R80 and R87, decodes to the
instruction it stands for. The opcode values are the default of R87, from general knowledge (the spec's
decision D1, assumption 1). -/
def Obligations.WrittenWordsDecode : Prop :=
  decode [0b00000001] = .ok (.halt, []) ∧
  decode [0b10000010, 0b00000011, 0b11111111] = .ok (.loadImmediate 3 255, []) ∧
  decode [0b01000111, 0b00000110] = .ok (.print 6, []) ∧
  decode [0b10100000, 0b00000001, 0b00000010] = .ok (.add 1 2, []) ∧
  decode [0b10100010, 0b00000111, 0b00000000] = .ok (.multiply 7 0, []) ∧
  decode [0b01000101, 0b00000101] = .ok (.push 5, []) ∧
  decode [0b01000110, 0b00000100] = .ok (.pop 4, []) ∧
  decode [0b01010000, 0b00000001] = .ok (.call 1, []) ∧
  decode [0b00010001] = .ok (.ret, []) ∧
  decode [0b10100111, 0b00000000, 0b00000010] = .ok (.compare 0 2, []) ∧
  decode [0b01010100, 0b00000011] = .ok (.jump 3, []) ∧
  decode [0b01010101, 0b00000011] = .ok (.jumpIfEqual 3, []) ∧
  decode [0b01010110, 0b00000011] = .ok (.jumpIfNotEqual 3, [])

/-- Decoding the bytes of any well-formed instruction gives it back, with the bytes after it, under
every opcode map that meets R86 (30_encoding.md R80 to R86). -/
def Obligations.DecodeOfEncode : Prop :=
  ∀ (m : OpcodeMap) (i : Instr) (rest : List Byte), m.Legal → i.wf = true →
    decodeWith m (encodeWith m i ++ rest) = .ok (i, rest)

/-- What decodes is well formed, and its bytes are exactly those the encoder gives: no byte has a second
meaning (30_encoding.md R80, R82, R84). -/
def Obligations.EncodeOfDecode : Prop :=
  ∀ (m : OpcodeMap) (bs : List Byte) (i : Instr) (rest : List Byte),
    decodeWith m bs = .ok (i, rest) → i.wf = true ∧ bs = encodeWith m i ++ rest

/-- Of the 256 byte values 243 are illegal opcodes, 0xFF always among them (30_encoding.md R86, R88). -/
def Obligations.IllegalOpcodeCount : Prop :=
  ∀ m : OpcodeMap, m.Legal →
    ((List.range 256).filter fun b => (lookup m (BitVec.ofNat 8 b)).isNone).length = 243 ∧
    lookup m 0xFF = none

/-! ### The step -/

/-- In RUNNING exactly one next state is defined, for every state and every opcode map; in the other run
states no step is defined, and the model names the stuck state (40_step_cycle.md R101, R110,
60_exceptions.md R252; assumption 14). For PRINT this takes a sink that accepts (D17, assumption 12). -/
def Obligations.StepIsDefinedExactlyInRunning : Prop :=
  ∀ (m : OpcodeMap) (s : State),
    (s.runState = .running → ∃ t, stepWith m s = .next t ∧ ∀ u, stepWith m s = .next u → u = t) ∧
    (s.runState = .loading → stepWith m s = .fault .loading) ∧
    (s.runState = .halted → stepWith m s = .fault .halted) ∧
    (s.runState = .faulted → stepWith m s = .fault .faulted)

/-- When the bytes at the program counter decode to an instruction, a step of the running machine is that
instruction's execution, and the instruction is well formed (40_step_cycle.md R100). Nothing is added
around `exec`: each instruction writes the pc itself (R107). The last clause is the model's own look-ahead
(assumption 22, DEDUCED): `fetchBytes` is memory's bytes at pc, pc+1 and pc+2, as many as exist, whatever
the arity, where the machine reads no byte beyond it. -/
def Obligations.StepRunsDecodedInstruction : Prop :=
  ∀ (m : OpcodeMap) (s : State) (i : Instr) (rest : List Byte), s.runState = .running →
    decodeWith m (fetchBytes s) = .ok (i, rest) →
    stepWith m s = exec i s ∧ (m = defaultOpc → step s = exec i s) ∧ i.wf = true ∧
    (∀ (k : Nat) (b : Byte), (fetchBytes s)[k]? = some b ↔
      (k < 3 ∧ s.pc.toNat + k < 256 ∧ b = s.mem.read (s.pc.toNat + k)))

/-- The checks of fetch and decode, in the order of 40_step_cycle.md R108 and 60_exceptions.md R245: each
clause says which error a running machine raises when all earlier checks passed. The order beyond the
first two is the spec's decision D8, the check of an operand that would not be used D9, that a raise
changes nothing else D7 (assumptions 6 and 7). -/
def Obligations.FetchAndDecodeErrorsInOrder : Prop :=
  ∀ (m : OpcodeMap) (s : State), s.runState = .running →
    let pc := s.pc.toNat
    let byte := fun k : Nat => s.mem.read (pc + k)
    (255 < pc → stepWith m s = .next (s.raise (.address pc))) ∧
    (pc ≤ 255 → lookup m (byte 0) = none → stepWith m s = .next (s.raise (.unknownOpcode (byte 0)))) ∧
    (∀ n, pc ≤ 255 → lookup m (byte 0) = some n →
      (1 ≤ arity n → pc = 255 → stepWith m s = .next (s.raise (.address 256))) ∧
      (arity n = 2 → pc = 254 → stepWith m s = .next (s.raise (.address 256))) ∧
      (pc + arity n ≤ 255 →
        ((controlOf n).op1IsReg = true → 8 ≤ (byte 1).toNat →
          stepWith m s = .next (s.raise (.register (byte 1)))) ∧
        ((controlOf n).op2IsReg = true → (byte 1).toNat < 8 → 8 ≤ (byte 2).toNat →
          stepWith m s = .next (s.raise (.register (byte 2))))))

/-- A step that ends in FAULTED changed nothing but the error record and the run state: registers,
memory, pc, output and `prog_loaded` are as before, and the record names an error, the pc and the
error's value (60_exceptions.md R250; precision is the spec's decision D7, assumption 6). -/
def Obligations.FaultsArePrecise : Prop :=
  ∀ (m : OpcodeMap) (s t : State), stepWith m s = .next t → t.runState = .faulted →
    ∃ e : CoreError, raised s t e ∧ t.errCause ≠ .noError

/-- The codes and the recorded value of each error (60_exceptions.md R241, 10_state.md R37, R39; the
numbers are the spec's decision D18, assumption 13). -/
def Obligations.ErrorCodesAndValues : Prop :=
  (∀ a : Int, -512 ≤ a → a < 512 → (CoreError.address a).value.toInt = a) ∧
  (∀ a : Int, (CoreError.address a).cause.code = 1) ∧
  (∀ b : Byte, (CoreError.register b).value.toInt = b.toNat ∧ (CoreError.register b).cause.code = 2) ∧
  (∀ b : Byte, (CoreError.unknownOpcode b).value.toInt = b.toNat ∧
    (CoreError.unknownOpcode b).cause.code = 3) ∧
  (∀ sel : BitVec 3, (CoreError.fatal sel).value.toInt = sel.toNat ∧
    (CoreError.fatal sel).cause.code = 4) ∧
  ErrCause.noError.code = 0 ∧ RunState.loading.code = 0 ∧ RunState.running.code = 1 ∧
  RunState.halted.code = 2 ∧ RunState.faulted.code = 3

/-- Every AddressError a step raises is one of the six cases of 60_exceptions.md R242, with the value
that case records. The cases rest on the spec's decisions D2, D10 and D11 (assumptions 4, 8, 9). -/
def Obligations.AddressErrorCases : Prop :=
  ∀ (m : OpcodeMap) (s t : State), Inv s → stepWith m s = .next t → t.errCause = .addressError →
    let n? := lookup m (s.mem.read s.pc.toNat)
    (s.pc.toNat = 256 ∧ t.errVal.toInt = 256) ∨
    (∃ n, n? = some n ∧ 1 ≤ arity n ∧ s.pc.toNat = 255 ∧ t.errVal.toInt = 256) ∨
    (∃ n, n? = some n ∧ arity n = 2 ∧ s.pc.toNat = 254 ∧ t.errVal.toInt = 256) ∨
    (n? = some .call ∧ s.pc.toNat = 254 ∧ t.errVal.toInt = 256) ∨
    ((n? = some .push ∨ n? = some .call) ∧ s.sp = 0 ∧ t.errVal.toInt = -1) ∨
    ((n? = some .pop ∨ n? = some .ret) ∧ s.sp = 255 ∧ t.errVal.toInt = 256)

/-- No program reaches FatalError: no step and no instruction, well formed or not, records it
(42_alu.md R135, 60_exceptions.md R246). -/
def Obligations.FatalErrorUnreachable : Prop :=
  (∀ (m : OpcodeMap) (s t : State), s.errCause ≠ .fatalError → stepWith m s = .next t →
    t.errCause ≠ .fatalError) ∧
  (∀ (i : Instr) (s t : State), s.errCause ≠ .fatalError → exec i s = .next t →
    t.errCause ≠ .fatalError)

/-- Every step keeps the invariant `Inv`: pc at most 256, memory canonical and within the 256 cells, the
error record as the run state says, with a value the spec gives that error, and a running machine loaded
(10_state.md R27, R33, R37, R38, R39, 60_exceptions.md R241, R242). Its clauses rest on the form memory is
held in (assumption 3) and on the spec's decisions D2, D7, D10, D11, D16, D18 and D19 (assumptions 4, 6, 8,
9 and 13). -/
def Obligations.StepKeepsInv : Prop :=
  ∀ (m : OpcodeMap) (s t : State), Inv s → stepWith m s = .next t → Inv t

/-- Every state the machine can come to from reset, by host actions and steps in any order, meets the
invariant `Inv`, whatever the opcode map and the reset content of memory (10_state.md R27, R33, R37, R38,
R39, R42, 70_reset_and_hazards.md R288). Its clauses rest on the form memory is held in (assumption 3), on
the spec's decisions D2, D7, D10, D11, D16, D18 and D19 (assumptions 4, 6, 8, 9 and 13) and on its closed
list of host actions, D20 (assumption 15). -/
def Obligations.ReachableStatesMeetInv : Prop :=
  ∀ (m : OpcodeMap) (memInit : Nat → Byte) (s : State), Reachable m memInit s → Inv s

/-- A running machine leaves RUNNING in exactly two ways: the instruction is HALT, or an error was raised
(40_step_cycle.md R109). -/
def Obligations.RunEndsByHaltOrError : Prop :=
  ∀ (m : OpcodeMap) (s t : State), stepWith m s = .next t →
    (t.runState = .halted ↔ ∃ rest, decodeWith m (fetchBytes s) = .ok (.halt, rest)) ∧
    t.runState ≠ .loading ∧
    (t.runState ≠ .running → t.runState = .halted ∨ ∃ e, raised s t e)

/-- Only PUSH and CALL change memory, and only the cell at `SP - 1` (20_memory.md R52, R59). -/
def Obligations.OnlyStackWritesChangeMemory : Prop :=
  ∀ (m : OpcodeMap) (s t : State) (a : Nat), stepWith m s = .next t →
    t.mem.read a ≠ s.mem.read a →
    (a : Int) = pushAddr s ∧
      (lookup m (s.mem.read s.pc.toNat) = some .push ∨ lookup m (s.mem.read s.pc.toNat) = some .call)

/-- The output only grows, by the one byte a PRINT emits (10_state.md R34, 41_system_move.md R123), which
the sink accepts in the same step (the spec's decision D17, assumption 12). -/
def Obligations.OutputGrowsByPrintOnly : Prop :=
  ∀ (m : OpcodeMap) (s t : State), stepWith m s = .next t →
    t.out = s.out ∨
    ∃ r rest, decodeWith m (fetchBytes s) = .ok (.print r, rest) ∧ ∃ h : r.toNat < 8,
      t.out = s.out ++ [s.x[r.toNat]]

/-- The next pc of every instruction that raises nothing is the one its selector gives: HOLD, PLUS2,
PLUS3, REG or POPPED (44_control_transfer.md R170, 40_step_cycle.md R105, 10_state.md R28). The target
register is read after the push (the spec's decision D12); HALT holds (D6) (assumptions 5 and 9). -/
def Obligations.PcFollowsSelector : Prop :=
  ∀ (i : Instr) (s t : State), i.wf = true → s.runState = .running → exec i s = .next t →
    t.runState ≠ .faulted →
    t.pc = nextPc (pcSel i.mnemonic s.eqFlag) s.pc (t.reg (regIndex3 (i.regOperands.headD 0)))
      (s.mem.read s.sp.toNat)

/-! ### What each instruction does

Each statement's conclusion is that `exec` answers a next state, with every field of it: the registers,
every byte of memory, the output, the pc, the run state and the error record. -/

/-- HALT ends the run and changes nothing else (41_system_move.md R120, R121). That the pc is held is the
spec's decision D6 (assumption 5). -/
def Obligations.HaltResult : Prop :=
  ∀ s : State, ∃ t, exec .halt s = .next t ∧ t.runState = .halted ∧ t.pc = s.pc ∧
    sameRegsBut [] s t ∧ sameMem s t ∧ t.out = s.out ∧ sameRecord s t

/-- LOAD_IMMEDIATE r, imm (41_system_move.md R122): its three bytes, and for every legal r, 6 and 7 among
them, and every literal, x[r] becomes the literal and the pc moves past it.
The default opcode byte in the rule's parentheses is R87's and no part of this statement. -/
def Obligations.LoadImmediateResult : Prop :=
  (∀ (m : OpcodeMap) (r imm : Byte),
    encodeWith m (.loadImmediate r imm) = [m .loadImmediate, r, imm]) ∧
  ∀ (s : State) (r imm : Byte) (hr : r.toNat < 8),
    ∃ t, exec (.loadImmediate r imm) s = .next t ∧ t.x[r.toNat] = imm ∧
      sameRegsBut [⟨r.toNat, hr⟩] s t ∧ sameMem s t ∧ t.out = s.out ∧ sameControl s t ∧
      t.pc = s.pc + 3 ∧ (s.pc.toNat ≤ 253 → t.pc.toNat = s.pc.toNat + 3)

/-- PRINT r (41_system_move.md R123): its two bytes, and for every legal r the register's byte is appended
to the output and nothing else changes but the pc. That this is one step assumes that the sink accepts the
byte (R125, 70_reset_and_hazards.md R289, the spec's decision D17, assumption 12). -/
def Obligations.PrintResult : Prop :=
  (∀ (m : OpcodeMap) (r : Byte), encodeWith m (.print r) = [m .print, r]) ∧
  ∀ (s : State) (r : Byte) (hr : r.toNat < 8),
    ∃ t, exec (.print r) s = .next t ∧ t.out = s.out ++ [s.x[r.toNat]] ∧
      sameRegsBut [] s t ∧ sameMem s t ∧ sameControl s t ∧
      t.pc = s.pc + 2 ∧ (s.pc.toNat ≤ 254 → t.pc.toNat = s.pc.toNat + 2)

/-- ADD ra, rb (42_alu.md R138): its three bytes, and for every pair of legal registers, equal or not,
x[ra] becomes the sum of the two old values modulo 256; no flag is written unless ra is 6.
The default opcode byte in the rule's parentheses is R87's and no part of this statement. -/
def Obligations.AddResult : Prop :=
  (∀ (m : OpcodeMap) (ra rb : Byte), encodeWith m (.add ra rb) = [m .add, ra, rb]) ∧
  ∀ (s : State) (ra rb : Byte) (ha : ra.toNat < 8) (hb : rb.toNat < 8),
    ∃ t, exec (.add ra rb) s = .next t ∧
      t.x[ra.toNat].toNat = (s.x[ra.toNat].toNat + s.x[rb.toNat].toNat) % 256 ∧
      sameRegsBut [⟨ra.toNat, ha⟩] s t ∧ sameMem s t ∧ t.out = s.out ∧ sameControl s t ∧
      t.pc = s.pc + 3 ∧ (s.pc.toNat ≤ 253 → t.pc.toNat = s.pc.toNat + 3)

/-- MULTIPLY ra, rb (42_alu.md R139): its three bytes, and for every pair of legal registers, equal or not,
x[ra] becomes the product of the two old values modulo 256; no flag is written unless ra is 6.
The default opcode byte in the rule's parentheses is R87's and no part of this statement. -/
def Obligations.MultiplyResult : Prop :=
  (∀ (m : OpcodeMap) (ra rb : Byte), encodeWith m (.multiply ra rb) = [m .multiply, ra, rb]) ∧
  ∀ (s : State) (ra rb : Byte) (ha : ra.toNat < 8) (hb : rb.toNat < 8),
    ∃ t, exec (.multiply ra rb) s = .next t ∧
      t.x[ra.toNat].toNat = (s.x[ra.toNat].toNat * s.x[rb.toNat].toNat) % 256 ∧
      sameRegsBut [⟨ra.toNat, ha⟩] s t ∧ sameMem s t ∧ t.out = s.out ∧ sameControl s t ∧
      t.pc = s.pc + 3 ∧ (s.pc.toNat ≤ 253 → t.pc.toNat = s.pc.toNat + 3)

/-- COMPARE ra, rb (42_alu.md R140): register 6 becomes 1, 2 or 4 as the first value is equal to, above or
below the second, both unsigned and read before the write. The direction, the unsigned reading and the
cleared bits 7 to 3 are the spec's decision D14 (assumption 11). -/
def Obligations.CompareResult : Prop :=
  ∀ (s : State) (ra rb : Byte) (_ : ra.toNat < 8) (_ : rb.toNat < 8),
    ∃ t, exec (.compare ra rb) s = .next t ∧
      (s.x[ra.toNat].toNat = s.x[rb.toNat].toNat → t.x[6] = 0b00000001) ∧
      (s.x[rb.toNat].toNat < s.x[ra.toNat].toNat → t.x[6] = 0b00000010) ∧
      (s.x[ra.toNat].toNat < s.x[rb.toNat].toNat → t.x[6] = 0b00000100) ∧
      sameRegsBut [6] s t ∧ sameMem s t ∧ t.out = s.out ∧ sameControl s t ∧
      t.pc = s.pc + 3 ∧ (s.pc.toNat ≤ 253 → t.pc.toNat = s.pc.toNat + 3)

/-- PUSH r with SP not 0 (43_stack.md R151, R156): the byte below the old SP becomes the register's old
value, r = 7 included, and SP moves there. That SP = 0 does not wrap is the spec's decision D10, the old
SP for r = 7 D13 (assumptions 8 and 10). -/
def Obligations.PushResult : Prop :=
  ∀ (s : State) (r : Byte) (_ : r.toNat < 8), s.mem.wf = true → s.sp ≠ 0 →
    ∃ t, exec (.push r) s = .next t ∧ pushAddr s = (s.sp.toNat - 1 : Nat) ∧
      t.mem.read (s.sp.toNat - 1) = s.x[r.toNat] ∧
      (∀ a : Nat, (a : Int) ≠ pushAddr s → t.mem.read a = s.mem.read a) ∧
      t.x[7].toNat = s.sp.toNat - 1 ∧ sameRegsBut [7] s t ∧ t.out = s.out ∧ sameControl s t ∧
      t.pc = s.pc + 2 ∧ (s.pc.toNat ≤ 254 → t.pc.toNat = s.pc.toNat + 2)

/-- POP r with SP not 255 (43_stack.md R152, R157): SP moves up, then x[r] becomes the byte at the old SP,
so r = 7 ends with the popped byte (the spec's decision D13); SP = 255 does not wrap (D10) (assumptions 8
and 10). -/
def Obligations.PopResult : Prop :=
  ∀ (s : State) (r : Byte) (hr : r.toNat < 8), s.sp ≠ 255 →
    ∃ t, exec (.pop r) s = .next t ∧ t.x[r.toNat] = s.mem.read s.sp.toNat ∧
      (r.toNat ≠ 7 → t.x[7].toNat = s.sp.toNat + 1) ∧
      sameRegsBut [7, ⟨r.toNat, hr⟩] s t ∧ sameMem s t ∧ t.out = s.out ∧ sameControl s t ∧
      t.pc = s.pc + 2 ∧ (s.pc.toNat ≤ 254 → t.pc.toNat = s.pc.toNat + 2)

/-- CALL r whose return address fits a byte, with SP not 0 (44_control_transfer.md R172): the return
address pc + 2 is pushed and the pc becomes x[r], read after the push (the spec's decision D12: r = 7
jumps to the new SP); D10, D11 (assumptions 8 and 9). -/
def Obligations.CallResult : Prop :=
  ∀ (s : State) (r : Byte) (_ : r.toNat < 8), s.mem.wf = true → s.pc.toNat + 2 ≤ 255 → s.sp ≠ 0 →
    ∃ t, exec (.call r) s = .next t ∧ pushAddr s = (s.sp.toNat - 1 : Nat) ∧
      (t.mem.read (s.sp.toNat - 1)).toNat = s.pc.toNat + 2 ∧
      (∀ a : Nat, (a : Int) ≠ pushAddr s → t.mem.read a = s.mem.read a) ∧
      t.x[7].toNat = s.sp.toNat - 1 ∧ sameRegsBut [7] s t ∧ t.out = s.out ∧ sameControl s t ∧
      t.pc.toNat = t.x[r.toNat].toNat ∧ (r.toNat ≠ 7 → t.pc.toNat = s.x[r.toNat].toNat)

/-- RETURN with SP not 255 (44_control_transfer.md R174): the pc becomes the byte at SP and SP moves up;
D10 (assumption 8). -/
def Obligations.ReturnResult : Prop :=
  ∀ s : State, s.sp ≠ 255 →
    ∃ t, exec .ret s = .next t ∧ t.pc.toNat = (s.mem.read s.sp.toNat).toNat ∧
      t.x[7].toNat = s.sp.toNat + 1 ∧
      sameRegsBut [7] s t ∧ sameMem s t ∧ t.out = s.out ∧ sameControl s t

/-- JUMP r (44_control_transfer.md R176): its two bytes, and for every legal r the pc becomes the
register's value, widened with zeros, and nothing else changes.
The default opcode byte in the rule's parentheses is R87's and no part of this statement. -/
def Obligations.JumpResult : Prop :=
  (∀ (m : OpcodeMap) (r : Byte), encodeWith m (.jump r) = [m .jump, r]) ∧
  ∀ (s : State) (r : Byte) (_ : r.toNat < 8),
    ∃ t, exec (.jump r) s = .next t ∧ t.pc.toNat = s.x[r.toNat].toNat ∧
      sameRegsBut [] s t ∧ sameMem s t ∧ t.out = s.out ∧ sameControl s t

/-- JUMP_IF_EQUAL r (44_control_transfer.md R180): taken exactly when bit 0 of register 6 is 1, whatever
its other bits. That register 6 counts as the flags whatever wrote it is the spec's decision D15
(assumption 11). -/
def Obligations.JumpIfEqualResult : Prop :=
  ∀ (s : State) (r : Byte) (_ : r.toNat < 8),
    ∃ t, exec (.jumpIfEqual r) s = .next t ∧
      (s.x[6].toNat % 2 = 1 → t.pc.toNat = s.x[r.toNat].toNat) ∧
      (s.x[6].toNat % 2 = 0 → t.pc = s.pc + 2 ∧ (s.pc.toNat ≤ 254 → t.pc.toNat = s.pc.toNat + 2)) ∧
      sameRegsBut [] s t ∧ sameMem s t ∧ t.out = s.out ∧ sameControl s t

/-- JUMP_IF_NOT_EQUAL r (44_control_transfer.md R182): taken exactly when bit 0 of register 6 is 0, whatever
its other bits (the spec's decision D15, assumption 11). -/
def Obligations.JumpIfNotEqualResult : Prop :=
  ∀ (s : State) (r : Byte) (_ : r.toNat < 8),
    ∃ t, exec (.jumpIfNotEqual r) s = .next t ∧
      (s.x[6].toNat % 2 = 0 → t.pc.toNat = s.x[r.toNat].toNat) ∧
      (s.x[6].toNat % 2 = 1 → t.pc = s.pc + 2 ∧ (s.pc.toNat ≤ 254 → t.pc.toNat = s.pc.toNat + 2)) ∧
      sameRegsBut [] s t ∧ sameMem s t ∧ t.out = s.out ∧ sameControl s t

/-! ### Where an instruction raises in its execute phase -/

/-- An operand byte of 8 or more in a register position raises RegisterError with that byte, the first
operand before the second, in every one of the 11 instructions that have one, and before any check of
the execute phase (40_step_cycle.md R106, 60_exceptions.md R243, R245; the order is the spec's decision
D8, the check of an untaken jump D9, that nothing else changes D7; assumptions 6, 7 and 19). -/
def Obligations.IllegalRegisterOperandRaises : Prop :=
  ∀ (i : Instr) (s : State) (b : Byte), i.firstIllegal = some b →
    ∃ t, exec i s = .next t ∧ raised s t (.register b) ∧ 8 ≤ b.toNat

/-- The stack instructions raise AddressError at the two ends of memory, and CALL where its return address
does not fit a byte, before the push is tried (43_stack.md R153, 44_control_transfer.md R172,
60_exceptions.md R242, R245; the spec's decisions D7, D10 and D11, assumptions 6, 8 and 9). -/
def Obligations.StackAndReturnAddressErrors : Prop :=
  ∀ (s : State) (r : Byte), r.toNat < 8 →
    (s.sp = 0 → ∃ t, exec (.push r) s = .next t ∧ raised s t (.address (-1))) ∧
    (s.sp = 255 → ∃ t, exec (.pop r) s = .next t ∧ raised s t (.address 256)) ∧
    (s.sp = 255 → ∃ t, exec .ret s = .next t ∧ raised s t (.address 256)) ∧
    (255 < s.pc.toNat + 2 →
      ∃ t, exec (.call r) s = .next t ∧ raised s t (.address (s.pc.toNat + 2))) ∧
    (s.pc.toNat + 2 ≤ 255 → s.sp = 0 →
      ∃ t, exec (.call r) s = .next t ∧ raised s t (.address (-1)))

/-! ### Frames -/

/-- What LOAD_IMMEDIATE, ADD, MULTIPLY and COMPARE leave alone on every path: every register but the
destination (register 6 for COMPARE), every byte of memory, the output, and, unless they raise, the run
state and the error record. That a raise leaves the rest as it was is the spec's decision D7 (assumption 6). -/
def Obligations.FrameOfRegisterWriters : Prop :=
  ∀ (i : Instr) (s t : State),
    i.mnemonic = .loadImmediate ∨ i.mnemonic = .add ∨ i.mnemonic = .multiply ∨
      i.mnemonic = .compare → exec i s = .next t →
    sameRegsBut (regWrites i) s t ∧ sameMem s t ∧ t.out = s.out ∧
    (sameControl s t ∨ ∃ e, raised s t e)

/-- What HALT, PRINT, JUMP, JUMP_IF_EQUAL and JUMP_IF_NOT_EQUAL leave alone on every path: every register,
the flags among them, every byte of memory, the output but for PRINT, the error record, and the run
state but for HALT, unless they raise.
That a raise leaves the rest as it was is the spec's decision D7 (assumption 6). -/
def Obligations.FrameOfNonWriters : Prop :=
  ∀ (i : Instr) (s t : State),
    i.mnemonic = .halt ∨ i.mnemonic = .print ∨ i.mnemonic = .jump ∨ i.mnemonic = .jumpIfEqual ∨
      i.mnemonic = .jumpIfNotEqual → exec i s = .next t →
    sameRegsBut [] s t ∧ sameMem s t ∧ (i.mnemonic ≠ .print → t.out = s.out) ∧
    ((sameRecord s t ∧ (i.mnemonic ≠ .halt → t.runState = s.runState)) ∨ ∃ e, raised s t e)

/-- What PUSH and CALL leave alone on every path: every register but the stack pointer, every byte of
memory but the one at `pushAddr`, the output, and, unless they raise, the run state and the error
record. That a raise leaves the rest as it was is the spec's decision D7 (assumption 6). -/
def Obligations.FrameOfPushAndCall : Prop :=
  ∀ (i : Instr) (s t : State), i.mnemonic = .push ∨ i.mnemonic = .call → exec i s = .next t →
    sameRegsBut [7] s t ∧
    (∀ a : Nat, (a : Int) ≠ pushAddr s → t.mem.read a = s.mem.read a) ∧ t.out = s.out ∧
    (sameControl s t ∨ ∃ e, raised s t e)

/-- What POP and RETURN leave alone on every path: every register but the stack pointer and POP's
destination, every byte of memory (the popped cell keeps its byte), the output, and, unless they raise,
the run state and the error record.
That a raise leaves the rest as it was is the spec's decision D7 (assumption 6). -/
def Obligations.FrameOfPopAndReturn : Prop :=
  ∀ (i : Instr) (s t : State), i.mnemonic = .pop ∨ i.mnemonic = .ret → exec i s = .next t →
    sameRegsBut (regWrites i) s t ∧ sameMem s t ∧ t.out = s.out ∧
    (sameControl s t ∨ ∃ e, raised s t e)

/-- An instruction's outcome depends on the registers of 10_state.md R25 alone: two states that differ only
in registers the instruction does not read give the same pc, memory, output, run state and error record,
the same values in the registers it writes, and leave every other register as each had it. An instruction
that raises is not covered here: IllegalRegisterOperandRaises and StackAndReturnAddressErrors say what it
records. -/
def Obligations.OutcomeDependsOnReadRegistersOnly : Prop :=
  ∀ (i : Instr) (s s' t : State) (y : Vector Byte 8), i.wf = true → s' = { s with x := y } →
    (∀ k ∈ regReads s i, y[k] = s.x[k]) → exec i s = .next t → t.runState ≠ .faulted →
    ∃ t', exec i s' = .next t' ∧ t'.pc = t.pc ∧ t'.mem = t.mem ∧ t'.out = t.out ∧
      t'.runState = t.runState ∧ sameRecord t t' ∧
      (∀ k ∈ regWrites i, t'.x[k] = t.x[k]) ∧ (∀ k, k ∉ regWrites i → t'.x[k] = y[k])

/-! ### Laws of the blocks -/

/-- The register file's contract (10_state.md R22): `set` stores the value modulo 256, `get` reads it back,
no other register changes, and an index outside 0 to 7, taken whole, fails with RegisterError. -/
def Obligations.RegisterFileContract : Prop :=
  ∀ (s : State) (b : Byte) (v : Nat),
    (b.toNat < 8 → ∃ t, regWrite s b v = .ok t ∧ regRead t b = .ok (BitVec.ofNat 8 (v % 256)) ∧
      (∀ k : RegIdx, k.val ≠ b.toNat → t.x[k] = s.x[k]) ∧ t.mem = s.mem ∧ t.pc = s.pc) ∧
    (8 ≤ b.toNat → regRead s b = .error (.register b) ∧ regWrite s b v = .error (.register b))

/-- Memory's contract (20_memory.md R50): inside [0, 256) a write is read back and changes that one cell
and nothing else; outside, read and write both fail with AddressError. The premise that memory is in
canonical form, and the clause that a write keeps it, are the model's choice of how memory is held
(assumption 3). -/
def Obligations.MemoryContract : Prop :=
  ∀ (s : State) (a : Int) (v : Byte), s.mem.wf = true →
    (0 ≤ a → a < 256 → ∃ t, memWrite s a v = .ok t ∧ memRead t a = .ok v ∧
      (∀ b : Int, 0 ≤ b → b < 256 → b ≠ a → memRead t b = memRead s b) ∧
      t = { s with mem := t.mem } ∧ t.mem.wf = true) ∧
    (a < 0 ∨ 256 ≤ a → memRead s a = .error (.address a) ∧ memWrite s a v = .error (.address a))

/-- Two canonical memories that read the same everywhere are the same data. The canonical form is the
model's choice of how the 256 cells of 10_state.md R33 are held (assumption 3, DESIGN CHOICE); the spec does
not speak of it. -/
def Obligations.CanonicalMemoriesAreEqualData : Prop :=
  ∀ m₁ m₂ : Memory, m₁.wf = true → m₂.wf = true → (∀ a, m₁.read a = m₂.read a) → m₁ = m₂

/-- ALU_ADD and ALU_MUL (42_alu.md R131, R133): the sum and the product modulo 256; the product's low byte
is the same whether the operands are read as unsigned or as two's complement. -/
def Obligations.AluAddAndMultiply : Prop :=
  ∀ a b : Byte,
    (∃ o, alu aluAdd a b = .ok o ∧ o.cmp = 0 ∧ o.result.toNat = (a.toNat + b.toNat) % 256) ∧
    (∃ o, alu aluMul a b = .ok o ∧ o.cmp = 0 ∧ o.result.toNat = (a.toNat * b.toNat) % 256 ∧
      (o.result.toNat : Int) = (a.toInt * b.toInt) % 256)

/-- ALU_SUB, ALU_CMP and the unsupported selectors (42_alu.md R130, R132, R134, R135): the difference modulo
256, exactly one comparison bit, FatalError with the selector as its value for selectors 4 to 7.
The selector codes and the order of the subtraction are the spec's decision D21, the direction of the comparison D14 (assumptions 11 and 16). -/
def Obligations.AluSubtractCompareAndUnsupported : Prop :=
  ∀ a b : Byte,
    (∃ o, alu 0b001 a b = .ok o ∧ o.cmp = 0 ∧ (o.result.toNat : Int) = ((a.toNat : Int) - b.toNat) % 256) ∧
    (∃ o, alu 0b011 a b = .ok o ∧ o.result = 0 ∧
      o.cmp = BitVec.ofBool (decide (a.toNat < b.toNat)) ++ BitVec.ofBool (decide (b.toNat < a.toNat)) ++
        BitVec.ofBool (decide (a = b))) ∧
    ∀ sel : BitVec 3, (sel.toNat < 4 → ∃ o, alu sel a b = .ok o) ∧
      (4 ≤ sel.toNat → alu sel a b = .error (.fatal sel))

/-- Stack laws (43_stack.md R154): any bytes pushed, as many as SP allows, pop in reverse order, with SP
back where it was, and memory is changed only in the cells below the old SP; from reset the 256th push
raises AddressError(-1) (the spec's decision D10, assumption 8). -/
def Obligations.StackIsLastInFirstOut : Prop :=
  (∀ (s : State) (vs : List Byte), s.mem.wf = true → vs.length ≤ s.sp.toNat →
    ∃ t u, pushAll s vs = .ok t ∧ t.sp.toNat = s.sp.toNat - vs.length ∧
      popAll t vs.length = .ok (vs.reverse, u) ∧ u.x = s.x ∧ u.mem = t.mem ∧
      (∀ a : Nat, a < s.sp.toNat - vs.length ∨ s.sp.toNat ≤ a → t.mem.read a = s.mem.read a) ∧
      (∀ (k : Nat) (v : Byte), vs[k]? = some v → t.mem.read (s.sp.toNat - 1 - k) = v)) ∧
  (∀ vs : List Byte, 256 ≤ vs.length → pushAll State.reset vs = .error (.address (-1)))

/-- A CALL and the RETURN that finds SP and the pushed cell as the CALL left them: execution resumes after
the CALL's two bytes, with SP as before (44_control_transfer.md R172, R174, 90_conflicts.md C5). -/
def Obligations.ReturnResumesAfterCall : Prop :=
  ∀ (s t u : State) (r : Byte), r.toNat < 8 → s.mem.wf = true → s.runState = .running →
    exec (.call r) s = .next t → t.runState ≠ .faulted →
    u.sp = t.sp → u.mem.read u.sp.toNat = t.mem.read t.sp.toNat →
    ∃ w, exec .ret u = .next w ∧ w.pc.toNat = s.pc.toNat + 2 ∧ w.sp = s.sp

/-- A conditional jump right after a COMPARE: JUMP_IF_EQUAL is taken exactly when the two values were
equal, JUMP_IF_NOT_EQUAL exactly when they were not (44_control_transfer.md R180, R182, 10_state.md R31,
90_conflicts.md C14; D14, D15). -/
def Obligations.CompareThenConditionalJump : Prop :=
  ∀ (s t : State) (ra rb r : Byte) (_ : ra.toNat < 8) (_ : rb.toNat < 8) (_ : r.toNat < 8),
    exec (.compare ra rb) s = .next t →
    ∃ u v, exec (.jumpIfEqual r) t = .next u ∧ exec (.jumpIfNotEqual r) t = .next v ∧
      u.pc = (if s.x[ra.toNat] = s.x[rb.toNat] then t.x[r.toNat].setWidth 9 else t.pc + 2) ∧
      v.pc = (if s.x[ra.toNat] = s.x[rb.toNat] then t.pc + 2 else t.x[r.toNat].setWidth 9)

/-- Code is data: after a push, a fetch from any pc sees the pushed byte wherever its cell falls, be it the
opcode, the first or the second operand byte, and every other byte of that fetch as before the push
(20_memory.md R60, R64). That three bytes are looked at together is assumption 22 (DEDUCED). -/
def Obligations.FetchSeesPushedByte : Prop :=
  ∀ (s t : State) (v : Byte) (p : PcWord), s.mem.wf = true → push s v = .ok t →
    ∀ k, k < 3 → (fetchBytes { t with pc := p })[k]? =
      if p.toNat + k = s.sp.toNat - 1 then some v else (fetchBytes { s with pc := p })[k]?

/-! ### The clocked view -/

/-- The two views agree (49_core_blocks.md R216): from the FETCH clock of an instruction, under any inputs
that hold no reset and in which the sink is ready again and again, the clocked structure comes, after
some clocks in which no architectural state changes, to exactly the state the instruction step gives,
ready to fetch the next. The clocked structure is the spec's decisions D22 and D23 (assumption 17). -/
def Obligations.ClockedViewRefinesStep : Prop :=
  ∀ (m : OpcodeMap) (ins : Nat → Inputs) (c : CState), c.arch.runState = .running →
    c.phase = .fetch → (∀ k, (ins k).rst = false) → (∀ k, ∃ j, k ≤ j ∧ (ins j).outReady = true) →
    ∃ n t, stepWith m c.arch = .next t ∧ (clocks m ins (n + 1) c).arch = t ∧
      (clocks m ins (n + 1) c).phase = .fetch ∧ ∀ k, k ≤ n → (clocks m ins k c).arch = c.arch

/-- Clock counts (49_core_blocks.md R213; the spec's decision D23): with a sink that is always ready an
instruction that raises nothing takes 2 clocks and one more per operand byte, and one that raises takes
1 to 4. -/
def Obligations.ClockCounts : Prop :=
  ∀ (m : OpcodeMap) (ins : Nat → Inputs) (c : CState) (t : State), c.arch.runState = .running →
    c.phase = .fetch → (∀ k, (ins k).rst = false ∧ (ins k).outReady = true) →
    stepWith m c.arch = .next t →
    (∀ i rest, decodeWith m (fetchBytes c.arch) = .ok (i, rest) → t.runState ≠ .faulted →
      (clocks m ins (2 + arity i.mnemonic) c).arch = t ∧
      (clocks m ins (2 + arity i.mnemonic) c).phase = .fetch ∧
      ∀ k, k < 2 + arity i.mnemonic → (clocks m ins k c).arch = c.arch) ∧
    (t.runState = .faulted → ∃ n, 1 ≤ n ∧ n ≤ 4 ∧ (clocks m ins n c).arch = t ∧
      ∀ k, k < n → (clocks m ins k c).arch = c.arch)

/-- The output port (49_core_blocks.md R206, 41_system_move.md R125; D17, assumption 12): an offered byte
that is not accepted leaves the state and the offer as they are; an accepted one is appended; a clock
with no offer appends nothing. -/
def Obligations.OutputHandshake : Prop :=
  ∀ (m : OpcodeMap) (ins : Inputs) (c : CState), ins.rst = false →
    (∀ v, outPort m c = some v → ins.outReady = false →
      (clock m ins c).arch = c.arch ∧ outPort m (clock m ins c) = some v) ∧
    (∀ v, outPort m c = some v → ins.outReady = true →
      (clock m ins c).arch.out = c.arch.out ++ [v] ∧ (clock m ins c).phase = .fetch ∧
      (clock m ins c).arch.pc = c.arch.pc + 2) ∧
    (outPort m c = none → (clock m ins c).arch.out = c.arch.out)

/-- Every change of memory goes through the memory port, one byte at a clock edge, and only the loader
(in LOADING) and EXEC write (49_core_blocks.md R200, R201, R214). The port, the phases and the loader's
inputs are the spec's decisions D20, D22 and D23 (assumption 17); what the port shows where nothing is
written is the model's choice (assumption 25), and no clause here rests on it. -/
def Obligations.MemoryPortCarriesEveryWrite : Prop :=
  ∀ (m : OpcodeMap) (ins : Inputs) (c : CState), ins.rst = false →
    (clock m ins c).arch.mem =
      (if (memPort m ins c).we then
        c.arch.mem.write (memPort m ins c).addr.toNat (memPort m ins c).wdata
      else c.arch.mem) ∧
    ((memPort m ins c).we = true →
      c.arch.runState = .loading ∨ (c.arch.runState = .running ∧ c.phase = .exec))

/-- Clocks outside RUNNING (49_core_blocks.md R215, 70_reset_and_hazards.md R280, R281, R284, R286,
60_exceptions.md R263; D16, D20, D26): `rst` restores the whole reset state in any run state and in the
middle of any instruction, with none of that instruction's writes; without it HALTED and FAULTED hold
everything; in LOADING a clock does the loader's write and then `start`, and each of the five cases gives
the whole next state. A byte loaded in the clock of `start` counts as loaded (assumption 17). -/
def Obligations.ClocksOutsideRunning : Prop :=
  ∀ (m : OpcodeMap) (ins : Inputs) (c : CState),
    (ins.rst = true → (clock m ins c).arch = State.reset) ∧
    (ins.rst = false → c.arch.runState = .halted ∨ c.arch.runState = .faulted →
      clock m ins c = c) ∧
    (ins.rst = false → c.arch.runState = .loading →
      let stored := c.arch.mem.write ins.ldAddr.toNat ins.ldData
      (ins.ldWe = false → ins.start = false → (clock m ins c).arch = c.arch) ∧
      (ins.ldWe = true → ins.start = false →
        (clock m ins c).arch = loaderWrite c.arch ins.ldAddr ins.ldData ∧
        (clock m ins c).arch = { c.arch with mem := stored, progLoaded := true }) ∧
      (ins.ldWe = true → ins.start = true →
        (clock m ins c).arch = hostStart (loaderWrite c.arch ins.ldAddr ins.ldData) ∧
        (clock m ins c).arch =
          { c.arch with mem := stored, progLoaded := true, runState := .running }) ∧
      (ins.ldWe = false → ins.start = true → c.arch.progLoaded = true →
        (clock m ins c).arch = { c.arch with runState := .running }) ∧
      (ins.ldWe = false → ins.start = true → c.arch.progLoaded = false →
        (clock m ins c).arch = { c.arch with runState := .halted }))

/-- The trace port (49_core_blocks.md R208; D24, assumption 18): absent on this hardware. Where it exists, an
instruction whose bytes are all fetched, also one with an illegal register operand, gives at the first
clock of its EXEC phase one record of its pc, its bytes (0 for those it does not have) and the registers,
none in its earlier clocks, and none in the further EXEC clocks of a PRINT that waits. The premise that
the model's bit `waited` is clear holds at every FETCH clock: reset clears it, and every clock keeps it
clear outside EXEC. -/
def Obligations.TraceRecordsEveryExecutedInstruction : Prop :=
  (∀ m c, tracePort m c = none) ∧
  (∀ (m : OpcodeMap) (ins : Nat → Inputs) (c : CState) (n : Mnemonic),
    c.arch.runState = .running → c.phase = .fetch → c.waited = false →
    (∀ k, (ins k).rst = false) → lookup m (c.arch.mem.read c.arch.pc.toNat) = some n →
    c.arch.pc.toNat + arity n ≤ 255 →
    let byte := fun k : Nat => if k ≤ arity n then c.arch.mem.read (c.arch.pc.toNat + k) else 0
    (∀ k, k ≤ arity n → traceRecord true m (clocks m ins k c) = none) ∧
    traceRecord true m (clocks m ins (1 + arity n) c) =
      some { pc := c.arch.pc, opc := byte 0, op1 := byte 1, op2 := byte 2, x := c.arch.x } ∧
    ∀ j, 1 ≤ j → (∀ i, i ≤ j → (clocks m ins (1 + arity n + i) c).phase = .exec) →
      traceRecord true m (clocks m ins (1 + arity n + j) c) = none) ∧
  CState.reset.waited = false ∧
  ∀ (m : OpcodeMap) (ins : Inputs) (c : CState), (c.phase ≠ .exec → c.waited = false) →
    (clock m ins c).phase ≠ .exec → (clock m ins c).waited = false

/-- The status pins the host reads (49_core_blocks.md R200, R207, 41_system_move.md R121, 60_exceptions.md
R251): in every state each pin shows its item, `halted` and `faulted` exactly in HALTED and FAULTED, and the
exit status is the cause's code. Where the invariant holds, that status is 0 exactly when the machine has
not faulted and at most 3, `halted` and `faulted` are never both set, and in FAULTED `err_pc` and `dbg_pc` are both
the pc of the faulting instruction, beside all the registers
(the codes are the spec's decision D18, assumption 13). The pin of `prog_loaded`, the fifth of the items of
10_state.md R35, is deduced (assumption 26). -/
def Obligations.StatusPinsReport : Prop :=
  ∀ s : State,
    (statusPins s).runState = s.runState.code ∧
    ((statusPins s).halted = true ↔ s.runState = .halted) ∧
    ((statusPins s).faulted = true ↔ s.runState = .faulted) ∧
    (statusPins s).errCause = s.errCause.code ∧ (statusPins s).errPc = s.errPc ∧
    (statusPins s).errVal = s.errVal ∧ (statusPins s).dbgPc = s.pc ∧ (statusPins s).dbgReg = s.x ∧
    (statusPins s).progLoaded = s.progLoaded ∧ s.exitStatus = (statusPins s).errCause ∧
    (Inv s →
      ((statusPins s).faulted = true ↔ (statusPins s).errCause ≠ 0) ∧
      ((statusPins s).errCause).toNat ≤ 3 ∧
      ¬ ((statusPins s).halted = true ∧ (statusPins s).faulted = true) ∧
      ((statusPins s).faulted = true → (statusPins s).errPc = s.pc ∧ (statusPins s).dbgPc = s.pc) ∧
      ((statusPins s).runState = RunState.running.code → (statusPins s).progLoaded = true))

/-- The instruction register (49_core_blocks.md R202, R212; the spec's decision D23, assumption 17): a
clock of a fetch phase puts memory's byte at pc, pc + 1 or pc + 2 into the field of the phase and leaves
the other two, also where the opcode is then found unknown; where that address is above 255 it latches
nothing; EXEC leaves the register alone. -/
def Obligations.FetchPhasesLatchTheirByte : Prop :=
  ∀ (m : OpcodeMap) (ins : Inputs) (c : CState), ins.rst = false → c.arch.runState = .running →
    let pc := c.arch.pc.toNat
    (c.phase = .fetch → (clock m ins c).ir =
      if pc ≤ 255 then ⟨c.arch.mem.read pc, c.ir.op1, c.ir.op2⟩ else c.ir) ∧
    (c.phase = .op1 → (clock m ins c).ir =
      if pc + 1 ≤ 255 then ⟨c.ir.opc, c.arch.mem.read (pc + 1), c.ir.op2⟩ else c.ir) ∧
    (c.phase = .op2 → (clock m ins c).ir =
      if pc + 2 ≤ 255 then ⟨c.ir.opc, c.ir.op1, c.arch.mem.read (pc + 2)⟩ else c.ir) ∧
    (c.phase = .exec → (clock m ins c).ir = c.ir)

end
end

