-- ==== Sys2Proof/Laws/Clocked.lean ====
section
/-! SUPPORT. What one clock of the clocked view can do, said once: the clock by run state, a running clock
inverted, and the fields of its two closing edges. -/

namespace Sys2Proof.Machine

/-! ### One clock by run state -/

theorem clock_rst {m : OpcodeMap} {ins : Inputs} {c : CState} (h : ins.rst = true) :
    clock m ins c = CState.reset := by simp [clock, h]

theorem clock_loading {m : OpcodeMap} {ins : Inputs} {c : CState} (h : ins.rst = false)
    (hr : c.arch.runState = .loading) :
    clock m ins c = { c with arch := loadingClock ins c.arch, phase := .fetch, waited := false } := by
  simp [clock, h, hr]

theorem clock_running {m : OpcodeMap} {ins : Inputs} {c : CState} (h : ins.rst = false)
    (hr : c.arch.runState = .running) : clock m ins c = runningClock m ins c := by
  simp [clock, h, hr]

theorem clock_halted {m : OpcodeMap} {ins : Inputs} {c : CState} (h : ins.rst = false)
    (hr : c.arch.runState = .halted) : clock m ins c = c := by simp [clock, h, hr]

theorem clock_faulted {m : OpcodeMap} {ins : Inputs} {c : CState} (h : ins.rst = false)
    (hr : c.arch.runState = .faulted) : clock m ins c = c := by simp [clock, h, hr]

/-! ### The two closing edges -/

@[simp] theorem faultEdge_arch (c : CState) (e : CoreError) : (faultEdge c e).arch = c.arch.raise e := rfl
@[simp] theorem faultEdge_phase (c : CState) (e : CoreError) : (faultEdge c e).phase = .fetch := rfl
@[simp] theorem faultEdge_ir (c : CState) (e : CoreError) : (faultEdge c e).ir = c.ir := rfl
@[simp] theorem faultEdge_waited (c : CState) (e : CoreError) : (faultEdge c e).waited = false := rfl
@[simp] theorem commitEdge_phase (c : CState) (o : ExecOut) : (commitEdge c o).phase = .fetch := rfl
@[simp] theorem commitEdge_ir (c : CState) (o : ExecOut) : (commitEdge c o).ir = c.ir := rfl
@[simp] theorem commitEdge_waited (c : CState) (o : ExecOut) : (commitEdge c o).waited = false := rfl

/-- What EXEC computes depends on the architectural state and the instruction register alone. -/
theorem execOut_congr (n : Mnemonic) {c d : CState} (ha : d.arch = c.arch) (hi : d.ir = c.ir) :
    execOut n d = execOut n c := by
  obtain ⟨arch, p, ir, w⟩ := c
  obtain ⟨arch', p', ir', w'⟩ := d
  cases ha
  cases hi
  rfl

/-! ### A running clock, inverted -/

/-- A running clock raises, with the instruction register as it was or with the fetched byte latched; or
latches and goes on to another phase; or waits for the sink; or commits. -/
theorem runningClock_cases (m : OpcodeMap) (ins : Inputs) (c : CState) :
    (∃ e ir, (ir = c.ir ∨ ir = latchedIR c) ∧ runningClock m ins c = faultEdge { c with ir := ir } e) ∨
    (∃ p, c.phase ≠ .exec ∧ fetchAddrErr c = false ∧
      runningClock m ins c = { c with ir := latchedIR c, phase := p }) ∨
    (∃ n v, c.phase = .exec ∧ lookup m c.ir.opc = some n ∧ (execOut n c).err = none ∧
      (execOut n c).outData = some v ∧ ins.outReady = false ∧
      runningClock m ins c = { c with waited := true }) ∨
    (∃ n, c.phase = .exec ∧ lookup m c.ir.opc = some n ∧ (execOut n c).err = none ∧
      runningClock m ins c = commitEdge c (execOut n c)) := by
  obtain ⟨arch, phase, ir, waited⟩ := c
  unfold runningClock
  cases phase with
  | fetch =>
    dsimp only
    by_cases ha : fetchAddrErr ⟨arch, .fetch, ir, waited⟩ = true
    · exact .inl ⟨_, _, .inl rfl, if_pos ha⟩
    · rw [if_neg ha]
      split
      · exact .inl ⟨_, _, .inr rfl, rfl⟩
      · exact .inr (.inl ⟨_, nofun, by simpa using ha, rfl⟩)
  | op1 =>
    dsimp only
    by_cases ha : fetchAddrErr ⟨arch, .op1, ir, waited⟩ = true
    · exact .inl ⟨_, _, .inl rfl, if_pos ha⟩
    · rw [if_neg ha]
      split
      · exact .inl ⟨_, _, .inr rfl, rfl⟩
      · exact .inr (.inl ⟨_, nofun, by simpa using ha, rfl⟩)
  | op2 =>
    dsimp only
    by_cases ha : fetchAddrErr ⟨arch, .op2, ir, waited⟩ = true
    · exact .inl ⟨_, _, .inl rfl, if_pos ha⟩
    · rw [if_neg ha]
      exact .inr (.inl ⟨_, nofun, by simpa using ha, rfl⟩)
  | exec =>
    dsimp only
    split
    · exact .inl ⟨_, _, .inl rfl, rfl⟩
    · rename_i n hl
      split
      · exact .inl ⟨_, _, .inl rfl, rfl⟩
      · rename_i he
        split
        · rename_i hw
          simp only [Bool.and_eq_true, Bool.not_eq_true', Option.isSome_iff_exists] at hw
          obtain ⟨⟨v, hv⟩, hready⟩ := hw
          exact .inr (.inr (.inl ⟨n, v, rfl, hl, he, hv, hready, rfl⟩))
        · exact .inr (.inr (.inr ⟨n, rfl, hl, he, rfl⟩))

end Sys2Proof.Machine
end

