-- ==== Sys2Proof/Laws/Memory.lean ====
section
/-! SUPPORT. The laws of memory: a read after a write to the same address gives the value written, a
write leaves every other address alone, and every memory operation keeps the canonical form and the
range (spec/20_memory.md R50, R51). -/

namespace Sys2Proof.Machine

@[simp] theorem Memory.read_nil (a : Nat) : Memory.read [] a = unlistedByte := rfl

theorem Memory.read_cons (k : Nat) (w : Byte) (rest : Memory) (a : Nat) :
    Memory.read ((k, w) :: rest) a = if a = k then w else Memory.read rest a := rfl

theorem Memory.wfAbove_cons (lo k : Nat) (w : Byte) (rest : Memory) :
    Memory.wfAbove lo ((k, w) :: rest) = true ↔
      lo ≤ k ∧ w ≠ unlistedByte ∧ Memory.wfAbove (k + 1) rest = true := by
  simp [Memory.wfAbove, and_assoc]

/-- The bound of a canonical memory may be lowered. -/
theorem Memory.wfAbove_mono : ∀ {m : Memory} {lo lo' : Nat}, lo' ≤ lo → Memory.wfAbove lo m = true →
    Memory.wfAbove lo' m = true
  | [], _, _, _, _ => rfl
  | (k, w) :: rest, lo, lo', hl, h => by
    rw [Memory.wfAbove_cons] at h ⊢
    exact ⟨by omega, h.2⟩

/-- A canonical memory lists nothing below its bound. -/
theorem Memory.read_below : ∀ {m : Memory} {lo a : Nat}, Memory.wfAbove lo m = true → a < lo →
    m.read a = unlistedByte
  | [], _, _, _, _ => rfl
  | (k, w) :: rest, lo, a, h, ha => by
    rw [Memory.wfAbove_cons] at h
    rw [Memory.read_cons, if_neg (by omega)]
    exact Memory.read_below h.2.2 (by omega)

/-- A write leaves every other address alone. -/
theorem Memory.read_write_ne : ∀ (m : Memory) {a b : Nat} (v : Byte), b ≠ a →
    (m.write a v).read b = m.read b
  | [], a, b, v, h => by
    unfold Memory.write
    split
    · rfl
    · rw [Memory.read_cons, if_neg h]
  | (k, w) :: rest, a, b, v, h => by
    unfold Memory.write
    by_cases hak : a < k
    · rw [if_pos hak]
      split
      · rfl
      · rw [Memory.read_cons, if_neg h]
    · rw [if_neg hak]
      by_cases hk : a = k
      · subst hk
        rw [if_pos rfl]
        split
        · rw [Memory.read_cons, if_neg h]
        · rw [Memory.read_cons, Memory.read_cons, if_neg h, if_neg h]
      · rw [if_neg hk, Memory.read_cons, Memory.read_cons, Memory.read_write_ne rest v h]

/-- A read of the address written gives the value written, in a canonical memory. -/
theorem Memory.read_write_same : ∀ {m : Memory} {lo : Nat} (a : Nat) (v : Byte),
    Memory.wfAbove lo m = true → (m.write a v).read a = v
  | [], _, a, v, _ => by
    unfold Memory.write
    split
    · rename_i h; rw [h]; rfl
    · rw [Memory.read_cons, if_pos rfl]
  | (k, w) :: rest, lo, a, v, hwf => by
    have hc := (Memory.wfAbove_cons lo k w rest).1 hwf
    unfold Memory.write
    by_cases hak : a < k
    · rw [if_pos hak]
      split
      · rename_i h
        rw [Memory.read_cons, if_neg (by omega), Memory.read_below hc.2.2 (by omega), h]
      · rw [Memory.read_cons, if_pos rfl]
    · rw [if_neg hak]
      by_cases hk : a = k
      · subst hk
        rw [if_pos rfl]
        split
        · rename_i h
          rw [Memory.read_below hc.2.2 (by omega), h]
        · rw [Memory.read_cons, if_pos rfl]
      · rw [if_neg hk, Memory.read_cons, if_neg hk]
        exact Memory.read_write_same a v hc.2.2

/-- A write keeps the canonical form. -/
theorem Memory.wfAbove_write : ∀ {m : Memory} {lo : Nat} (a : Nat) (v : Byte), lo ≤ a →
    Memory.wfAbove lo m = true → Memory.wfAbove lo (m.write a v) = true
  | [], lo, a, v, hlo, _ => by
    unfold Memory.write
    split
    · rfl
    · rw [Memory.wfAbove_cons]; exact ⟨hlo, ‹_›, rfl⟩
  | (k, w) :: rest, lo, a, v, hlo, hwf => by
    have hc := (Memory.wfAbove_cons lo k w rest).1 hwf
    unfold Memory.write
    by_cases hak : a < k
    · rw [if_pos hak]
      split
      · exact hwf
      · rw [Memory.wfAbove_cons, Memory.wfAbove_cons]
        exact ⟨hlo, ‹_›, by omega, hc.2⟩
    · rw [if_neg hak]
      by_cases hk : a = k
      · subst hk
        rw [if_pos rfl]
        split
        · exact Memory.wfAbove_mono (by omega) hc.2.2
        · rw [Memory.wfAbove_cons]; exact ⟨hlo, ‹_›, hc.2.2⟩
      · rw [if_neg hk, Memory.wfAbove_cons]
        exact ⟨hc.1, hc.2.1, Memory.wfAbove_write a v (by omega) hc.2.2⟩

theorem Memory.wf_write {m : Memory} (a : Nat) (v : Byte) (h : m.wf = true) :
    (m.write a v).wf = true :=
  Memory.wfAbove_write a v (Nat.zero_le a) h

/-- A write inside the 256 cells lists nothing outside them. -/
theorem Memory.inRange_write : ∀ {m : Memory} {a : Nat} (v : Byte), a < Config.memSize →
    m.inRange = true → (m.write a v).inRange = true
  | [], a, v, ha, _ => by
    unfold Memory.write
    split
    · rfl
    · simpa [Memory.inRange] using ha
  | (k, w) :: rest, a, v, ha, h => by
    have hk : k < Config.memSize ∧ Memory.inRange rest = true := by
      simpa [Memory.inRange] using h
    unfold Memory.write
    split
    · split
      · exact h
      · simp only [Memory.inRange, List.all_cons, Bool.and_eq_true, decide_eq_true_eq]
        exact ⟨ha, hk.1, hk.2⟩
    · split
      · split
        · exact hk.2
        · simp only [Memory.inRange, List.all_cons, Bool.and_eq_true, decide_eq_true_eq]
          exact ⟨ha, hk.2⟩
      · simp only [Memory.inRange, List.all_cons, Bool.and_eq_true, decide_eq_true_eq]
        exact ⟨hk.1, Memory.inRange_write v ha hk.2⟩

theorem Memory.wf_ofFun (f : Nat → Byte) : ∀ n : Nat, (Memory.ofFun f n).wf = true
  | 0 => rfl
  | n + 1 => Memory.wf_write n (f n) (Memory.wf_ofFun f n)

theorem Memory.read_ofFun (f : Nat → Byte) : ∀ n a : Nat,
    (Memory.ofFun f n).read a = if a < n then f a else unlistedByte
  | 0, a => rfl
  | n + 1, a => by
    unfold Memory.ofFun
    by_cases h : a = n
    · subst h
      rw [Memory.read_write_same a _ (Memory.wf_ofFun f a), if_pos (Nat.lt_succ_self a)]
    · rw [Memory.read_write_ne _ _ h, Memory.read_ofFun f n a]
      have hiff : a < n ↔ a < n + 1 := by omega
      simp only [hiff]

theorem Memory.inRange_ofFun (f : Nat → Byte) : ∀ n : Nat, n ≤ Config.memSize →
    (Memory.ofFun f n).inRange = true
  | 0, _ => rfl
  | n + 1, h => Memory.inRange_write (f n) h (Memory.inRange_ofFun f n (Nat.le_of_succ_le h))

theorem Memory.wf_storeBytes : ∀ {m : Memory} (a : Nat) (bs : List Byte), m.wf = true →
    (storeBytes m a bs).wf = true
  | _, _, [], h => h
  | m, a, v :: rest, h => by
    unfold storeBytes
    apply Memory.wf_storeBytes
    split
    · exact Memory.wf_write a v h
    · exact h

theorem Memory.inRange_storeBytes : ∀ {m : Memory} (a : Nat) (bs : List Byte), m.inRange = true →
    (storeBytes m a bs).inRange = true
  | _, _, [], h => h
  | m, a, v :: rest, h => by
    unfold storeBytes
    apply Memory.inRange_storeBytes
    split
    · exact Memory.inRange_write v ‹_› h
    · exact h

/-- The reset memory is in canonical form. -/
theorem Memory.wf_reset : State.reset.mem.wf = true := rfl

end Sys2Proof.Machine
end

