-- ==== Sys2Proof/Laws/Environment.lean ====
section
/-! SUPPORT. One lemma per field of the reset state for any MEM_INIT, so that no later proof unfolds the
256 writes that make its memory. -/

namespace Sys2Proof.Machine

/-- Every field but memory is that of `State.reset`. -/
theorem State.resetWith_eq (f : Nat → Byte) :
    State.resetWith f = { State.reset with mem := Memory.ofFun f Config.memSize } := by
  unfold State.resetWith; rfl

@[simp] theorem State.resetWith_mem (f : Nat → Byte) :
    (State.resetWith f).mem = Memory.ofFun f Config.memSize := by rw [State.resetWith_eq]
@[simp] theorem State.resetWith_x (f : Nat → Byte) : (State.resetWith f).x = State.reset.x := by
  rw [State.resetWith_eq]
@[simp] theorem State.resetWith_pc (f : Nat → Byte) : (State.resetWith f).pc = 0 := by
  rw [State.resetWith_eq]; rfl
@[simp] theorem State.resetWith_out (f : Nat → Byte) : (State.resetWith f).out = [] := by
  rw [State.resetWith_eq]; rfl
@[simp] theorem State.resetWith_runState (f : Nat → Byte) :
    (State.resetWith f).runState = .loading := by rw [State.resetWith_eq]; rfl
@[simp] theorem State.resetWith_errCause (f : Nat → Byte) :
    (State.resetWith f).errCause = .noError := by rw [State.resetWith_eq]; rfl
@[simp] theorem State.resetWith_errPc (f : Nat → Byte) : (State.resetWith f).errPc = 0 := by
  rw [State.resetWith_eq]; rfl
@[simp] theorem State.resetWith_errVal (f : Nat → Byte) : (State.resetWith f).errVal = 0 := by
  rw [State.resetWith_eq]; rfl
@[simp] theorem State.resetWith_progLoaded (f : Nat → Byte) :
    (State.resetWith f).progLoaded = false := by rw [State.resetWith_eq]; rfl

/-- The loader keeps memory's canonical form. -/
theorem loaderWrite_wf {s : State} (a v : Byte) (h : s.mem.wf = true) :
    (loaderWrite s a v).mem.wf = true := by
  unfold loaderWrite
  split
  · exact Memory.wf_write _ v h
  · exact h
  · exact h
  · exact h

/-- The loader writes no cell above 255. -/
theorem loaderWrite_inRange {s : State} (a v : Byte) (h : s.mem.inRange = true) :
    (loaderWrite s a v).mem.inRange = true := by
  unfold loaderWrite
  split
  · exact Memory.inRange_write v a.isLt h
  · exact h
  · exact h
  · exact h

end Sys2Proof.Machine
end

