-- ==== Sys2Proof/Laws/State.lean ====
section
/-! SUPPORT. One lemma per field per update of the state, so that no later proof unfolds a record
update. -/

namespace Sys2Proof.Machine

/-! ### `setReg` -/

@[simp] theorem State.setReg_x (s : State) (i : RegIdx) (v : Byte) : (s.setReg i v).x = s.x.set i v := rfl
@[simp] theorem State.setReg_pc (s : State) (i : RegIdx) (v : Byte) : (s.setReg i v).pc = s.pc := rfl
@[simp] theorem State.setReg_mem (s : State) (i : RegIdx) (v : Byte) : (s.setReg i v).mem = s.mem := rfl
@[simp] theorem State.setReg_out (s : State) (i : RegIdx) (v : Byte) : (s.setReg i v).out = s.out := rfl
@[simp] theorem State.setReg_runState (s : State) (i : RegIdx) (v : Byte) :
    (s.setReg i v).runState = s.runState := rfl
@[simp] theorem State.setReg_errCause (s : State) (i : RegIdx) (v : Byte) :
    (s.setReg i v).errCause = s.errCause := rfl
@[simp] theorem State.setReg_errPc (s : State) (i : RegIdx) (v : Byte) :
    (s.setReg i v).errPc = s.errPc := rfl
@[simp] theorem State.setReg_errVal (s : State) (i : RegIdx) (v : Byte) :
    (s.setReg i v).errVal = s.errVal := rfl
@[simp] theorem State.setReg_progLoaded (s : State) (i : RegIdx) (v : Byte) :
    (s.setReg i v).progLoaded = s.progLoaded := rfl

/-! ### `advance` -/

@[simp] theorem State.advance_x (s : State) (n : PcWord) : (s.advance n).x = s.x := rfl
@[simp] theorem State.advance_pc (s : State) (n : PcWord) : (s.advance n).pc = s.pc + n := rfl
@[simp] theorem State.advance_mem (s : State) (n : PcWord) : (s.advance n).mem = s.mem := rfl
@[simp] theorem State.advance_out (s : State) (n : PcWord) : (s.advance n).out = s.out := rfl
@[simp] theorem State.advance_runState (s : State) (n : PcWord) :
    (s.advance n).runState = s.runState := rfl
@[simp] theorem State.advance_errCause (s : State) (n : PcWord) :
    (s.advance n).errCause = s.errCause := rfl
@[simp] theorem State.advance_errPc (s : State) (n : PcWord) : (s.advance n).errPc = s.errPc := rfl
@[simp] theorem State.advance_errVal (s : State) (n : PcWord) : (s.advance n).errVal = s.errVal := rfl
@[simp] theorem State.advance_progLoaded (s : State) (n : PcWord) :
    (s.advance n).progLoaded = s.progLoaded := rfl

/-! ### `jumpTo` -/

@[simp] theorem State.jumpTo_x (s : State) (v : Byte) : (s.jumpTo v).x = s.x := rfl
@[simp] theorem State.jumpTo_pc (s : State) (v : Byte) : (s.jumpTo v).pc = v.setWidth 9 := rfl
@[simp] theorem State.jumpTo_mem (s : State) (v : Byte) : (s.jumpTo v).mem = s.mem := rfl
@[simp] theorem State.jumpTo_out (s : State) (v : Byte) : (s.jumpTo v).out = s.out := rfl
@[simp] theorem State.jumpTo_runState (s : State) (v : Byte) : (s.jumpTo v).runState = s.runState := rfl
@[simp] theorem State.jumpTo_errCause (s : State) (v : Byte) : (s.jumpTo v).errCause = s.errCause := rfl
@[simp] theorem State.jumpTo_errPc (s : State) (v : Byte) : (s.jumpTo v).errPc = s.errPc := rfl
@[simp] theorem State.jumpTo_errVal (s : State) (v : Byte) : (s.jumpTo v).errVal = s.errVal := rfl
@[simp] theorem State.jumpTo_progLoaded (s : State) (v : Byte) :
    (s.jumpTo v).progLoaded = s.progLoaded := rfl

/-! ### `emit` -/

@[simp] theorem State.emit_x (s : State) (v : Byte) : (s.emit v).x = s.x := rfl
@[simp] theorem State.emit_pc (s : State) (v : Byte) : (s.emit v).pc = s.pc := rfl
@[simp] theorem State.emit_mem (s : State) (v : Byte) : (s.emit v).mem = s.mem := rfl
@[simp] theorem State.emit_out (s : State) (v : Byte) : (s.emit v).out = s.out ++ [v] := rfl
@[simp] theorem State.emit_runState (s : State) (v : Byte) : (s.emit v).runState = s.runState := rfl
@[simp] theorem State.emit_errCause (s : State) (v : Byte) : (s.emit v).errCause = s.errCause := rfl
@[simp] theorem State.emit_errPc (s : State) (v : Byte) : (s.emit v).errPc = s.errPc := rfl
@[simp] theorem State.emit_errVal (s : State) (v : Byte) : (s.emit v).errVal = s.errVal := rfl
@[simp] theorem State.emit_progLoaded (s : State) (v : Byte) :
    (s.emit v).progLoaded = s.progLoaded := rfl

/-! ### `raise` -/

@[simp] theorem State.raise_x (s : State) (e : CoreError) : (s.raise e).x = s.x := rfl
@[simp] theorem State.raise_pc (s : State) (e : CoreError) : (s.raise e).pc = s.pc := rfl
@[simp] theorem State.raise_mem (s : State) (e : CoreError) : (s.raise e).mem = s.mem := rfl
@[simp] theorem State.raise_out (s : State) (e : CoreError) : (s.raise e).out = s.out := rfl
@[simp] theorem State.raise_runState (s : State) (e : CoreError) : (s.raise e).runState = .faulted := rfl
@[simp] theorem State.raise_errCause (s : State) (e : CoreError) : (s.raise e).errCause = e.cause := rfl
@[simp] theorem State.raise_errPc (s : State) (e : CoreError) : (s.raise e).errPc = s.pc := rfl
@[simp] theorem State.raise_errVal (s : State) (e : CoreError) : (s.raise e).errVal = e.value := rfl
@[simp] theorem State.raise_progLoaded (s : State) (e : CoreError) :
    (s.raise e).progLoaded = s.progLoaded := rfl

/-! ### Registers after a register write -/

theorem State.reg_setReg_self (s : State) (i : RegIdx) (v : Byte) : (s.setReg i v).reg i = v := by
  simp [State.reg]

theorem State.reg_setReg_ne (s : State) {i j : RegIdx} (v : Byte) (h : j ≠ i) :
    (s.setReg i v).reg j = s.reg j := by
  have hij : i.val ≠ j.val := fun e => h (Fin.ext e.symm)
  simp [State.reg, hij]

theorem State.reg_setReg (s : State) (i j : RegIdx) (v : Byte) :
    (s.setReg i v).reg j = if j = i then v else s.reg j := by
  by_cases h : j = i
  · subst h; simp [State.reg_setReg_self]
  · simp [h, State.reg_setReg_ne]

@[simp] theorem State.reg_advance (s : State) (n : PcWord) (i : RegIdx) :
    (s.advance n).reg i = s.reg i := rfl
@[simp] theorem State.reg_jumpTo (s : State) (v : Byte) (i : RegIdx) : (s.jumpTo v).reg i = s.reg i := rfl
@[simp] theorem State.reg_emit (s : State) (v : Byte) (i : RegIdx) : (s.emit v).reg i = s.reg i := rfl
@[simp] theorem State.reg_raise (s : State) (e : CoreError) (i : RegIdx) :
    (s.raise e).reg i = s.reg i := rfl

end Sys2Proof.Machine
end

