-- ==== Sys2Proof/Laws/Ops.lean ====
section
/-! SUPPORT. What each shared operation can do, said once: register operands, memory access, the ALU,
push, pop, the return address, and the end of an instruction. Later proofs cite these and unfold
nothing. -/

namespace Sys2Proof.Machine

/-! ### The end of an instruction -/

@[simp] theorem settle_ok (s t : State) : settle s (.ok t) = .next t := rfl
@[simp] theorem settle_error (s : State) (e : CoreError) : settle s (.error e) = .next (s.raise e) := rfl

/-- Every instruction ends in a next state: the one it reached, or the raised one. -/
theorem settle_cases {s u : State} {r : Except CoreError State} (h : settle s r = .next u) :
    r = .ok u ∨ ∃ e, r = .error e ∧ u = s.raise e := by
  cases r with
  | ok t => exact .inl (by simpa using h)
  | error e => exact .inr ⟨e, rfl, by simpa [eq_comm] using h⟩

/-! ### Register operands -/

@[simp] theorem regIndex_legal {b : Byte} (h : b.toNat < 8) : regIndex b = .ok ⟨b.toNat, h⟩ := by
  simp [regIndex, h]

@[simp] theorem regIndex_illegal {b : Byte} (h : 8 ≤ b.toNat) : regIndex b = .error (.register b) := by
  simp [regIndex, Nat.not_lt.2 h]

@[simp] theorem withReg_legal {r : Byte} (h : r.toNat < 8) (k : RegIdx → Except CoreError State) :
    withReg r k = k ⟨r.toNat, h⟩ := by simp [withReg, h]

@[simp] theorem withReg_illegal {r : Byte} (h : 8 ≤ r.toNat) (k : RegIdx → Except CoreError State) :
    withReg r k = .error (.register r) := by simp [withReg, h]

theorem withReg_cases {r : Byte} {k : RegIdx → Except CoreError State} {x : Except CoreError State}
    (h : withReg r k = x) :
    (∃ hr : r.toNat < 8, x = k ⟨r.toNat, hr⟩) ∨ (8 ≤ r.toNat ∧ x = .error (.register r)) := by
  by_cases hr : r.toNat < 8
  · exact .inl ⟨hr, by rw [← h, withReg_legal hr]⟩
  · exact .inr ⟨by omega, by rw [← h, withReg_illegal (by omega)]⟩

/-! ### Memory access -/

theorem memRead_inside (s : State) {a : Nat} (h : a < 256) : memRead s a = .ok (s.mem.read a) := by
  have h' : ¬ ((a : Int) < 0 ∨ (Config.memSize : Int) ≤ a) := by unfold Config.memSize; omega
  exact if_neg h'

theorem memRead_outside (s : State) {a : Int} (h : a < 0 ∨ 256 ≤ a) :
    memRead s a = .error (.address a) := if_pos h

theorem memWrite_inside (s : State) {a : Nat} (v : Byte) (h : a < 256) :
    memWrite s a v = .ok { s with mem := s.mem.write a v } := by
  have h' : ¬ ((a : Int) < 0 ∨ (Config.memSize : Int) ≤ a) := by unfold Config.memSize; omega
  exact if_neg h'

theorem memWrite_outside (s : State) {a : Int} (v : Byte) (h : a < 0 ∨ 256 ≤ a) :
    memWrite s a v = .error (.address a) := if_pos h

/-! ### The stack -/

/-- A push at `SP = 0` raises AddressError(-1) and reaches no state (43_stack.md R153). -/
theorem push_at_zero {s : State} (v : Byte) (h : s.sp.toNat = 0) :
    push s v = .error (.address (-1)) := by
  simp [push, pushAddr, h, memWrite]

/-- Every other push writes the byte at `SP - 1` and moves the stack pointer there (43_stack.md R151). -/
theorem push_above_zero {s : State} (v : Byte) (h : s.sp.toNat ≠ 0) :
    push s v = .ok ({ s with mem := s.mem.write (s.sp.toNat - 1) v }.setReg Config.spIdx (s.sp - 1)) := by
  have hlt : s.sp.toNat < 256 := s.sp.isLt
  have ha : pushAddr s = ((s.sp.toNat - 1 : Nat) : Int) := by unfold pushAddr; omega
  have hb : BitVec.ofInt 8 (pushAddr s) = s.sp - 1 := by
    rw [ha]
    apply BitVec.eq_of_toNat_eq
    have h1 : BitVec.toNat (1 : Byte) = 1 := rfl
    simp only [BitVec.ofInt_natCast, BitVec.toNat_ofNat, BitVec.toNat_sub, h1]
    omega
  unfold push
  rw [hb, ha, memWrite_inside s v (by omega)]

theorem push_cases {s : State} {v : Byte} {r : Except CoreError State} (h : push s v = r) :
    (s.sp.toNat = 0 ∧ r = .error (.address (-1))) ∨
    (s.sp.toNat ≠ 0 ∧
      r = .ok ({ s with mem := s.mem.write (s.sp.toNat - 1) v }.setReg Config.spIdx (s.sp - 1))) := by
  by_cases hz : s.sp.toNat = 0
  · exact .inl ⟨hz, by rw [← h, push_at_zero v hz]⟩
  · exact .inr ⟨hz, by rw [← h, push_above_zero v hz]⟩

/-- A pop at `SP = 255` raises AddressError(256) (43_stack.md R153). -/
theorem pop_at_top {s : State} (h : s.sp.toNat = 255) : pop s = .error (.address 256) := by
  have : memRead s (s.sp.toNat : Int) = .ok (s.mem.read s.sp.toNat) :=
    memRead_inside s s.sp.isLt
  unfold pop
  rw [this]
  simp [h]

/-- Every other pop reads the byte at `SP` and moves the stack pointer up (43_stack.md R152). -/
theorem pop_below_top {s : State} (h : s.sp.toNat ≠ 255) :
    pop s = .ok (s.mem.read s.sp.toNat, s.setReg Config.spIdx (s.sp + 1)) := by
  have hlt : s.sp.toNat < 256 := s.sp.isLt
  have : memRead s (s.sp.toNat : Int) = .ok (s.mem.read s.sp.toNat) :=
    memRead_inside s hlt
  have hb : BitVec.ofNat 8 (s.sp.toNat + 1) = s.sp + 1 := by
    apply BitVec.eq_of_toNat_eq
    simp [BitVec.toNat_add]
  unfold pop
  rw [this]
  simp only [hb]
  rw [if_neg (by omega)]

theorem pop_cases {s : State} {r : Except CoreError (Byte × State)} (h : pop s = r) :
    (s.sp.toNat = 255 ∧ r = .error (.address 256)) ∨
    (s.sp.toNat ≠ 255 ∧ r = .ok (s.mem.read s.sp.toNat, s.setReg Config.spIdx (s.sp + 1))) := by
  by_cases hz : s.sp.toNat = 255
  · exact .inl ⟨hz, by rw [← h, pop_at_top hz]⟩
  · exact .inr ⟨hz, by rw [← h, pop_below_top hz]⟩

theorem returnAddress_fits {s : State} (h : s.pc.toNat + 2 ≤ 255) :
    returnAddress s = .ok (BitVec.ofNat 8 (s.pc.toNat + 2)) := if_neg (by omega)

theorem returnAddress_beyond {s : State} (h : 255 < s.pc.toNat + 2) :
    returnAddress s = .error (.address (s.pc.toNat + 2)) := if_pos h

/-! ### The ALU -/

@[simp] theorem alu_add (a b : Byte) : alu aluAdd a b = .ok { result := a + b, cmp := 0 } := rfl
@[simp] theorem alu_sub (a b : Byte) : alu aluSub a b = .ok { result := a - b, cmp := 0 } := rfl
@[simp] theorem alu_mul (a b : Byte) : alu aluMul a b = .ok { result := a * b, cmp := 0 } := rfl
@[simp] theorem alu_cmp (a b : Byte) : alu aluCmp a b = .ok { result := 0, cmp := compareBits a b } := rfl

end Sys2Proof.Machine
end

