-- ==== Sys2Proof/Laws/Step.lean ====
section
/-! SUPPORT. What one step can do, said once, and the bytes a fetch sees. -/

namespace Sys2Proof.Machine

/-- A step of a running machine raises the decode's error or executes the decoded instruction. -/
theorem stepWith_running {m : OpcodeMap} {s : State} (h : s.runState = .running) :
    (∃ e, decodeWith m (fetchBytes s) = .error e ∧
      stepWith m s = .next (s.raise (fetchError s.pc.toNat e))) ∨
    (∃ i rest, decodeWith m (fetchBytes s) = .ok (i, rest) ∧ stepWith m s = exec i s) := by
  unfold stepWith
  rw [h]
  cases hd : decodeWith m (fetchBytes s) with
  | error e => exact .inl ⟨e, rfl, rfl⟩
  | ok p => exact .inr ⟨p.1, p.2, rfl, rfl⟩

/-- A step that answers a next state was taken in RUNNING. -/
theorem stepWith_next_running {m : OpcodeMap} {s t : State} (h : stepWith m s = .next t) :
    s.runState = .running := by
  unfold stepWith at h
  cases hr : s.runState <;> rw [hr] at h <;> first | rfl | cases h

/-- A fetch sees up to three bytes, as many as memory has at the program counter. -/
theorem fetchBytes_eq (s : State) :
    fetchBytes s =
      if s.pc.toNat < 254 then
        [s.mem.read s.pc.toNat, s.mem.read (s.pc.toNat + 1), s.mem.read (s.pc.toNat + 2)]
      else if s.pc.toNat = 254 then [s.mem.read 254, s.mem.read 255]
      else if s.pc.toNat = 255 then [s.mem.read 255]
      else [] := by
  unfold fetchBytes
  split
  · rename_i h
    have h0 : s.pc.toNat < 256 := by omega
    have h1 : s.pc.toNat + 1 < 256 := by omega
    have h2 : s.pc.toNat + 2 < 256 := by omega
    simp [h0, h1, h2]
  · split
    · rename_i h; rw [h]; rfl
    · split
      · rename_i h; rw [h]; rfl
      · have h0 : ¬ s.pc.toNat < 256 := by omega
        have h1 : ¬ s.pc.toNat + 1 < 256 := by omega
        have h2 : ¬ s.pc.toNat + 2 < 256 := by omega
        simp [h0, h1, h2]

end Sys2Proof.Machine
end

