-- ==== Sys2Proof/Laws/Exec.lean ====
section
/-! SUPPORT. What each instruction answers, said once, and the inversion of `exec`: every next state an
instruction can reach, guards included. Later proofs cite these and unfold no meaning. -/

namespace Sys2Proof.Machine

@[simp] theorem State.reg_eq (s : State) (i : RegIdx) : s.reg i = s.x[i] := rfl

/-- The state after a push that does not fail. -/
def State.pushed (s : State) (v : Byte) : State :=
  { s with mem := s.mem.write (s.sp.toNat - 1) v }.setReg Config.spIdx (s.sp - 1)

/-- The state after a pop that does not fail. -/
def State.popped (s : State) : State := s.setReg Config.spIdx (s.sp + 1)

/-! ### The answer of each instruction -/

theorem exec_halt (s : State) : exec .halt s = .next { s with runState := .halted } := rfl

theorem exec_loadImmediate (s : State) {r : Byte} (imm : Byte) (h : r.toNat < 8) :
    exec (.loadImmediate r imm) s = .next ((s.setReg ⟨r.toNat, h⟩ imm).advance 3) := by
  simp [exec, execLoadImmediate, h]

theorem exec_print (s : State) {r : Byte} (h : r.toNat < 8) :
    exec (.print r) s = .next ((s.emit (s.reg ⟨r.toNat, h⟩)).advance 2) := by
  simp [exec, execPrint, h]

theorem exec_add (s : State) {ra rb : Byte} (ha : ra.toNat < 8) (hb : rb.toNat < 8) :
    exec (.add ra rb) s =
      .next ((s.setReg ⟨ra.toNat, ha⟩ (s.reg ⟨ra.toNat, ha⟩ + s.reg ⟨rb.toNat, hb⟩)).advance 3) := by
  simp [exec, execAdd, withRegs, aluToReg, ha, hb]

theorem exec_multiply (s : State) {ra rb : Byte} (ha : ra.toNat < 8) (hb : rb.toNat < 8) :
    exec (.multiply ra rb) s =
      .next ((s.setReg ⟨ra.toNat, ha⟩ (s.reg ⟨ra.toNat, ha⟩ * s.reg ⟨rb.toNat, hb⟩)).advance 3) := by
  simp [exec, execMultiply, withRegs, aluToReg, ha, hb]

theorem exec_compare (s : State) {ra rb : Byte} (ha : ra.toNat < 8) (hb : rb.toNat < 8) :
    exec (.compare ra rb) s = .next ((s.setReg Config.flIdx
      (flagsByte (compareBits (s.reg ⟨ra.toNat, ha⟩) (s.reg ⟨rb.toNat, hb⟩)))).advance 3) := by
  simp [exec, execCompare, withRegs, ha, hb]

theorem exec_push (s : State) {r : Byte} (h : r.toNat < 8) (hz : s.sp.toNat ≠ 0) :
    exec (.push r) s = .next ((s.pushed (s.reg ⟨r.toNat, h⟩)).advance 2) := by
  simp [exec, execPush, h, push_above_zero _ hz, State.pushed]

theorem exec_push_at_zero (s : State) {r : Byte} (h : r.toNat < 8) (hz : s.sp.toNat = 0) :
    exec (.push r) s = .next (s.raise (.address (-1))) := by
  simp [exec, execPush, h, push_at_zero _ hz]

theorem exec_pop (s : State) {r : Byte} (h : r.toNat < 8) (hz : s.sp.toNat ≠ 255) :
    exec (.pop r) s =
      .next ((s.popped.setReg ⟨r.toNat, h⟩ (s.mem.read s.sp.toNat)).advance 2) := by
  simp [exec, execPop, h, pop_below_top hz, State.popped]

theorem exec_pop_at_top (s : State) {r : Byte} (h : r.toNat < 8) (hz : s.sp.toNat = 255) :
    exec (.pop r) s = .next (s.raise (.address 256)) := by
  simp [exec, execPop, h, pop_at_top hz]

theorem exec_call (s : State) {r : Byte} (h : r.toNat < 8) (hp : s.pc.toNat + 2 ≤ 255)
    (hz : s.sp.toNat ≠ 0) :
    exec (.call r) s = .next ((s.pushed (BitVec.ofNat 8 (s.pc.toNat + 2))).jumpTo
      ((s.pushed (BitVec.ofNat 8 (s.pc.toNat + 2))).reg ⟨r.toNat, h⟩)) := by
  simp [exec, execCall, h, returnAddress_fits hp, push_above_zero _ hz, State.pushed]

theorem exec_call_beyond (s : State) {r : Byte} (h : r.toNat < 8) (hp : 255 < s.pc.toNat + 2) :
    exec (.call r) s = .next (s.raise (.address (s.pc.toNat + 2))) := by
  simp [exec, execCall, h, returnAddress_beyond hp]

theorem exec_call_at_zero (s : State) {r : Byte} (h : r.toNat < 8) (hp : s.pc.toNat + 2 ≤ 255)
    (hz : s.sp.toNat = 0) : exec (.call r) s = .next (s.raise (.address (-1))) := by
  simp [exec, execCall, h, returnAddress_fits hp, push_at_zero _ hz]

theorem exec_ret (s : State) (hz : s.sp.toNat ≠ 255) :
    exec .ret s = .next (s.popped.jumpTo (s.mem.read s.sp.toNat)) := by
  simp [exec, execReturn, pop_below_top hz, State.popped]

theorem exec_ret_at_top (s : State) (hz : s.sp.toNat = 255) :
    exec .ret s = .next (s.raise (.address 256)) := by
  simp [exec, execReturn, pop_at_top hz]

theorem exec_jump (s : State) {r : Byte} (h : r.toNat < 8) :
    exec (.jump r) s = .next (s.jumpTo (s.reg ⟨r.toNat, h⟩)) := by
  simp [exec, execJump, h]

theorem exec_jumpIfEqual (s : State) {r : Byte} (h : r.toNat < 8) :
    exec (.jumpIfEqual r) s =
      .next (if s.eqFlag then s.jumpTo (s.reg ⟨r.toNat, h⟩) else s.advance 2) := by
  simp [exec, execJumpIfEqual, h]

theorem exec_jumpIfNotEqual (s : State) {r : Byte} (h : r.toNat < 8) :
    exec (.jumpIfNotEqual r) s =
      .next (if s.eqFlag then s.advance 2 else s.jumpTo (s.reg ⟨r.toNat, h⟩)) := by
  simp [exec, execJumpIfNotEqual, h]

/-! ### Ill-formed instructions -/

/-- An instruction with an illegal register operand raises RegisterError with the first such byte. -/
theorem exec_illegal {i : Instr} (s : State) {b : Byte} (h : i.firstIllegal = some b) :
    exec i s = .next (s.raise (.register b)) := by
  have one (r : Byte) (k : RegIdx → Except CoreError State)
      (h : [r].find? (fun b => !legalReg b) = some b) : withReg r k = .error (.register b) := by
    by_cases h1 : r.toNat < 8
    · simp [legalReg, h1] at h
    · obtain rfl : r = b := by simpa [legalReg, h1] using h
      exact withReg_illegal (Nat.not_lt.1 h1) k
  have two (ra rb : Byte) (k : RegIdx → RegIdx → Except CoreError State)
      (h : [ra, rb].find? (fun b => !legalReg b) = some b) :
      withRegs ra rb k = .error (.register b) := by
    by_cases h1 : ra.toNat < 8
    · rw [withRegs, withReg_legal h1]
      exact one rb _ (by simpa [legalReg, h1] using h)
    · exact one ra _ (by simpa [legalReg, h1] using h)
  cases i with
  | halt => cases h
  | ret => cases h
  | loadImmediate r imm => rw [exec, execLoadImmediate, one r _ h]; rfl
  | print r => rw [exec, execPrint, one r _ h]; rfl
  | add ra rb => rw [exec, execAdd, two ra rb _ h]; rfl
  | multiply ra rb => rw [exec, execMultiply, two ra rb _ h]; rfl
  | compare ra rb => rw [exec, execCompare, two ra rb _ h]; rfl
  | push r => rw [exec, execPush, one r _ h]; rfl
  | pop r => rw [exec, execPop, one r _ h]; rfl
  | call r => rw [exec, execCall, one r _ h]; rfl
  | jump r => rw [exec, execJump, one r _ h]; rfl
  | jumpIfEqual r => rw [exec, execJumpIfEqual, one r _ h]; rfl
  | jumpIfNotEqual r => rw [exec, execJumpIfNotEqual, one r _ h]; rfl

/-! ### Inversion -/

/-- Why an instruction raises in its execute phase. -/
inductive ExecError (i : Instr) (s : State) : CoreError → Prop where
  | register (b : Byte) : i.firstIllegal = some b → ExecError i s (.register b)
  | push : i.mnemonic = .push ∨ i.mnemonic = .call → i.wf = true → s.sp.toNat = 0 →
      ExecError i s (.address (-1))
  | pop : i.mnemonic = .pop ∨ i.mnemonic = .ret → i.wf = true → s.sp.toNat = 255 →
      ExecError i s (.address 256)
  | call : i.mnemonic = .call → i.wf = true → 255 < s.pc.toNat + 2 →
      ExecError i s (.address (s.pc.toNat + 2))

/-- Every next state of an instruction: it raised, or it is the one its meaning gives. -/
inductive ExecNext (s : State) : Instr → State → Prop where
  | raise (i : Instr) (e : CoreError) : ExecError i s e → ExecNext s i (s.raise e)
  | halt : ExecNext s .halt { s with runState := .halted }
  | loadImmediate (r imm : Byte) (h : r.toNat < 8) :
      ExecNext s (.loadImmediate r imm) ((s.setReg ⟨r.toNat, h⟩ imm).advance 3)
  | print (r : Byte) (h : r.toNat < 8) :
      ExecNext s (.print r) ((s.emit (s.reg ⟨r.toNat, h⟩)).advance 2)
  | add (ra rb : Byte) (ha : ra.toNat < 8) (hb : rb.toNat < 8) :
      ExecNext s (.add ra rb)
        ((s.setReg ⟨ra.toNat, ha⟩ (s.reg ⟨ra.toNat, ha⟩ + s.reg ⟨rb.toNat, hb⟩)).advance 3)
  | multiply (ra rb : Byte) (ha : ra.toNat < 8) (hb : rb.toNat < 8) :
      ExecNext s (.multiply ra rb)
        ((s.setReg ⟨ra.toNat, ha⟩ (s.reg ⟨ra.toNat, ha⟩ * s.reg ⟨rb.toNat, hb⟩)).advance 3)
  | compare (ra rb : Byte) (ha : ra.toNat < 8) (hb : rb.toNat < 8) :
      ExecNext s (.compare ra rb) ((s.setReg Config.flIdx
        (flagsByte (compareBits (s.reg ⟨ra.toNat, ha⟩) (s.reg ⟨rb.toNat, hb⟩)))).advance 3)
  | push (r : Byte) (h : r.toNat < 8) : s.sp.toNat ≠ 0 →
      ExecNext s (.push r) ((s.pushed (s.reg ⟨r.toNat, h⟩)).advance 2)
  | pop (r : Byte) (h : r.toNat < 8) : s.sp.toNat ≠ 255 →
      ExecNext s (.pop r) ((s.popped.setReg ⟨r.toNat, h⟩ (s.mem.read s.sp.toNat)).advance 2)
  | call (r : Byte) (h : r.toNat < 8) : s.pc.toNat + 2 ≤ 255 → s.sp.toNat ≠ 0 →
      ExecNext s (.call r) ((s.pushed (BitVec.ofNat 8 (s.pc.toNat + 2))).jumpTo
        ((s.pushed (BitVec.ofNat 8 (s.pc.toNat + 2))).reg ⟨r.toNat, h⟩))
  | ret : s.sp.toNat ≠ 255 → ExecNext s .ret (s.popped.jumpTo (s.mem.read s.sp.toNat))
  | jump (r : Byte) (h : r.toNat < 8) : ExecNext s (.jump r) (s.jumpTo (s.reg ⟨r.toNat, h⟩))
  | jumpIfEqual (r : Byte) (h : r.toNat < 8) : ExecNext s (.jumpIfEqual r)
      (if s.eqFlag then s.jumpTo (s.reg ⟨r.toNat, h⟩) else s.advance 2)
  | jumpIfNotEqual (r : Byte) (h : r.toNat < 8) : ExecNext s (.jumpIfNotEqual r)
      (if s.eqFlag then s.advance 2 else s.jumpTo (s.reg ⟨r.toNat, h⟩))

/-- The inversion of `exec`. -/
theorem exec_cases {i : Instr} {s t : State} (h : exec i s = .next t) : ExecNext s i t := by
  cases hw : i.firstIllegal with
  | some b =>
    rw [exec_illegal s hw] at h; cases h
    exact .raise _ _ (.register b hw)
  | none =>
    have hwf := Instr.firstIllegal_eq_none.1 hw
    have hlegal := hwf
    simp only [Instr.wf, List.all_eq_true, legalReg, decide_eq_true_eq] at hlegal
    cases i with
    | halt => cases h; exact .halt
    | loadImmediate r imm =>
      have hr := hlegal r (by simp [Instr.regOperands])
      rw [exec_loadImmediate s imm hr] at h; cases h; exact .loadImmediate r imm hr
    | print r =>
      have hr := hlegal r (by simp [Instr.regOperands])
      rw [exec_print s hr] at h; cases h; exact .print r hr
    | add ra rb =>
      have ha := hlegal ra (by simp [Instr.regOperands])
      have hb := hlegal rb (by simp [Instr.regOperands])
      rw [exec_add s ha hb] at h; cases h; exact .add ra rb ha hb
    | multiply ra rb =>
      have ha := hlegal ra (by simp [Instr.regOperands])
      have hb := hlegal rb (by simp [Instr.regOperands])
      rw [exec_multiply s ha hb] at h; cases h; exact .multiply ra rb ha hb
    | compare ra rb =>
      have ha := hlegal ra (by simp [Instr.regOperands])
      have hb := hlegal rb (by simp [Instr.regOperands])
      rw [exec_compare s ha hb] at h; cases h; exact .compare ra rb ha hb
    | push r =>
      have hr := hlegal r (by simp [Instr.regOperands])
      by_cases hz : s.sp.toNat = 0
      · rw [exec_push_at_zero s hr hz] at h; cases h; exact .raise _ _ (.push (.inl rfl) hwf hz)
      · rw [exec_push s hr hz] at h; cases h; exact .push r hr hz
    | pop r =>
      have hr := hlegal r (by simp [Instr.regOperands])
      by_cases hz : s.sp.toNat = 255
      · rw [exec_pop_at_top s hr hz] at h; cases h; exact .raise _ _ (.pop (.inl rfl) hwf hz)
      · rw [exec_pop s hr hz] at h; cases h; exact .pop r hr hz
    | call r =>
      have hr := hlegal r (by simp [Instr.regOperands])
      by_cases hp : 255 < s.pc.toNat + 2
      · rw [exec_call_beyond s hr hp] at h; cases h; exact .raise _ _ (.call rfl hwf hp)
      · by_cases hz : s.sp.toNat = 0
        · rw [exec_call_at_zero s hr (by omega) hz] at h; cases h
          exact .raise _ _ (.push (.inr rfl) hwf hz)
        · rw [exec_call s hr (by omega) hz] at h; cases h; exact .call r hr (by omega) hz
    | ret =>
      by_cases hz : s.sp.toNat = 255
      · rw [exec_ret_at_top s hz] at h; cases h; exact .raise _ _ (.pop (.inr rfl) hwf hz)
      · rw [exec_ret s hz] at h; cases h; exact .ret hz
    | jump r =>
      have hr := hlegal r (by simp [Instr.regOperands])
      rw [exec_jump s hr] at h; cases h; exact .jump r hr
    | jumpIfEqual r =>
      have hr := hlegal r (by simp [Instr.regOperands])
      rw [exec_jumpIfEqual s hr] at h; cases h; exact .jumpIfEqual r hr
    | jumpIfNotEqual r =>
      have hr := hlegal r (by simp [Instr.regOperands])
      rw [exec_jumpIfNotEqual s hr] at h; cases h; exact .jumpIfNotEqual r hr

end Sys2Proof.Machine
end

