-- ==== Sys2Proof/Machine/Text.lean ====
section
/-! DEFINITION. The names of the 13 instructions and the notation the spec writes programs in
(spec/00_scope.md R12, 30_encoding.md R90; the notation and the short forms are the spec's decision D25;
assumption 24). Nothing the machine does depends on this file. -/

namespace Sys2Proof

/-- The canonical mnemonic (00_scope.md R12). -/
def Mnemonic.name : Mnemonic → String
  | .halt => "HALT"
  | .loadImmediate => "LOAD_IMMEDIATE"
  | .print => "PRINT"
  | .add => "ADD"
  | .multiply => "MULTIPLY"
  | .push => "PUSH"
  | .pop => "POP"
  | .call => "CALL"
  | .ret => "RETURN"
  | .compare => "COMPARE"
  | .jump => "JUMP"
  | .jumpIfEqual => "JUMP_IF_EQUAL"
  | .jumpIfNotEqual => "JUMP_IF_NOT_EQUAL"

/-- The short form (00_scope.md R12). -/
def Mnemonic.shortName : Mnemonic → String
  | .halt => "HLT"
  | .loadImmediate => "LDI"
  | .print => "PRN"
  | .add => "ADD"
  | .multiply => "MUL"
  | .push => "PUSH"
  | .pop => "POP"
  | .call => "CALL"
  | .ret => "RET"
  | .compare => "CMP"
  | .jump => "JMP"
  | .jumpIfEqual => "JEQ"
  | .jumpIfNotEqual => "JNE"

/-- A register operand in a listing: `R0` to `R7`, and for an illegal byte its number (30_encoding.md
R90). -/
def registerText (b : Byte) : String := "R" ++ toString b.toNat

/-- The operands in byte order, separated by commas; the literal in decimal (30_encoding.md R90). -/
def Instr.operandText : Instr → String
  | .halt => ""
  | .loadImmediate r imm => " " ++ registerText r ++ ", " ++ toString imm.toNat
  | .print r => " " ++ registerText r
  | .add ra rb => " " ++ registerText ra ++ ", " ++ registerText rb
  | .multiply ra rb => " " ++ registerText ra ++ ", " ++ registerText rb
  | .push r => " " ++ registerText r
  | .pop r => " " ++ registerText r
  | .call r => " " ++ registerText r
  | .ret => ""
  | .compare ra rb => " " ++ registerText ra ++ ", " ++ registerText rb
  | .jump r => " " ++ registerText r
  | .jumpIfEqual r => " " ++ registerText r
  | .jumpIfNotEqual r => " " ++ registerText r

/-- An instruction as a line of a listing (30_encoding.md R90: "LDI R0, 8"). -/
def Instr.text (i : Instr) : String := i.mnemonic.shortName ++ i.operandText

end Sys2Proof
end

