-- ==== Sys2Proof/Tests/Slice0.lean ====
section
/-! SUPPORT. Tests: the WellFormed smoke, every encoding written out from spec/30_encoding.md R81 and R87,
one step of each instruction with the results of spec/95_test_vectors.md (the vector's id stands in each
test's name), and a witness for the hypotheses of every statement that has some. -/

namespace Sys2Proof.Tests

open Sys2Proof Sys2Proof.Machine

/-! ### Helpers -/

/-- The next state, if the answer is one. -/
def answer : Result → Option State
  | .next t => some t
  | .fault _ => none
  | .refused _ => none

/-- The reset registers with some of them set. -/
def regs (l : List (RegIdx × Byte)) : Vector Byte 8 := l.foldl (fun x p => x.set p.1 p.2) State.reset.x

/-- A running machine with the given bytes at its program counter, the given registers and other
memory. -/
def machine (pc : PcWord) (l : List (RegIdx × Byte)) (bytes : List Byte) (data : Memory) : State :=
  { State.reset with
    x := regs l, pc := pc, mem := storeBytes data pc.toNat bytes, runState := .running
    progLoaded := true }

/-- One step of it. -/
def after (pc : PcWord) (l : List (RegIdx × Byte)) (bytes : List Byte) (data : Memory) : Option State :=
  answer (step (machine pc l bytes data))

/-- What a fault leaves: run state, code, pc of the instruction, value. -/
def errorOf (s : State) : RunState × Nat × Nat × Int :=
  (s.runState, s.errCause.code.toNat, s.errPc.toNat, s.errVal.toInt)

/-! ### Well-formedness (30_encoding.md R82, R83, R89) -/

theorem test_wf_legal_operands : (Instr.add 7 0).wf = true ∧ (Instr.loadImmediate 7 255).wf = true := by decide
theorem test_illformed_loadImmediate : (Instr.loadImmediate 8 0).wf = false := by decide
theorem test_illformed_print : (Instr.print 255).wf = false := by decide
theorem test_illformed_add_first : (Instr.add 8 0).wf = false := by decide
theorem test_illformed_add_second : (Instr.add 0 8).wf = false := by decide
theorem test_illformed_multiply_first : (Instr.multiply 9 0).wf = false := by decide
theorem test_illformed_multiply_second : (Instr.multiply 0 128).wf = false := by decide
theorem test_illformed_compare_first : (Instr.compare 16 0).wf = false := by decide
theorem test_illformed_compare_second : (Instr.compare 7 8).wf = false := by decide
theorem test_illformed_push : (Instr.push 8).wf = false := by decide
theorem test_illformed_pop : (Instr.pop 8).wf = false := by decide
theorem test_illformed_call : (Instr.call 8).wf = false := by decide
theorem test_illformed_jump : (Instr.jump 8).wf = false := by decide
theorem test_illformed_jumpIfEqual : (Instr.jumpIfEqual 8).wf = false := by decide
theorem test_illformed_jumpIfNotEqual : (Instr.jumpIfNotEqual 8).wf = false := by decide

/-! ### Decoding: every constructor's bytes, and the refusals by name -/

theorem test_decode_halt : (decode [0b00000001]).toOption = some (.halt, []) := by decide
theorem test_decode_loadImmediate :
    (decode [0b10000010, 0b00000011, 0b11111111]).toOption = some (.loadImmediate 3 255, []) := by decide
theorem test_decode_print : (decode [0b01000111, 0b00000110]).toOption = some (.print 6, []) := by decide
theorem test_decode_add :
    (decode [0b10100000, 0b00000001, 0b00000010]).toOption = some (.add 1 2, []) := by decide
theorem test_decode_multiply :
    (decode [0b10100010, 0b00000111, 0b00000000]).toOption = some (.multiply 7 0, []) := by decide
theorem test_decode_push : (decode [0b01000101, 0b00000101]).toOption = some (.push 5, []) := by decide
theorem test_decode_pop : (decode [0b01000110, 0b00000100]).toOption = some (.pop 4, []) := by decide
theorem test_decode_call : (decode [0b01010000, 0b00000001]).toOption = some (.call 1, []) := by decide
theorem test_decode_ret : (decode [0b00010001]).toOption = some (.ret, []) := by decide
theorem test_decode_compare :
    (decode [0b10100111, 0b00000000, 0b00000010]).toOption = some (.compare 0 2, []) := by decide
theorem test_decode_jump : (decode [0b01010100, 0b00000011]).toOption = some (.jump 3, []) := by decide
theorem test_decode_jumpIfEqual :
    (decode [0b01010101, 0b00000011]).toOption = some (.jumpIfEqual 3, []) := by decide
theorem test_decode_jumpIfNotEqual :
    (decode [0b01010110, 0b00000011]).toOption = some (.jumpIfNotEqual 3, []) := by decide

theorem test_decode_refuses_by_name :
    decode [0xFF] = .error (.unknownOpcode 0xFF) ∧ decode [0x00] = .error (.unknownOpcode 0x00) ∧
    decode [0xA0, 9, 10] = .error (.badRegister 9) ∧ decode [0xA0, 0, 8] = .error (.badRegister 8) ∧
    decode [] = .error (.missingByte 0) ∧ decode [0x47] = .error (.missingByte 1) ∧
    decode [0xA0, 9] = .error (.missingByte 2) := ⟨rfl, rfl, rfl, rfl, rfl, rfl, rfl⟩

/-- In a table word the first byte is bits 7 to 0, the second 15 to 8, the third 23 to 16. -/
theorem test_decodeTableWord :
    decodeTableWord 24 0xFF0382 = some (.loadImmediate 3 255) ∧
    decodeTableWord 16 0x0647 = some (.print 6) ∧ decodeTableWord 8 0x11 = some .ret ∧
    decodeTableWord 8 0xA0 = some (.add 0 0) ∧ decodeTableWord 8 0xFF = none := by decide

/-- The bits above `nbits` are zero: with 16 of its 24 bits ADD R1, R2 is ADD R1, R0. -/
theorem test_withFetchWord :
    ((answer (step (State.reset.withFetchWord 16 0x0201A0))).map fun s => (s.runState, s.pc)) =
      some (.running, 3) ∧
    (State.reset.withFetchWord 24 0x0201A0).mem = [(0, 0xA0), (1, 0x01), (2, 0x02)] ∧
    fetchBytes (State.reset.withFetchWord 16 0x0201A0) = [0xA0, 0x01, 0x00] := by decide

/-! ### System and move -/

theorem test_T1_halt_holds_pc :
    ((after 11 [] [0x01] []).map fun s => (s.runState, s.pc, s.errCause)) =
      some (.halted, 11, .noError) := by decide
theorem test_T2_halt_at_the_last_cell :
    ((after 255 [] [0x01] []).map fun s => (s.runState, s.pc)) = some (.halted, 255) := by decide
theorem test_T4_loadImmediate : ((after 0 [] [0x82, 3, 0xFF] []).map fun s => (s.x[3], s.pc)) =
    some (255, 3) := by decide
theorem test_T12_loadImmediate_illegal :
    ((after 0 [] [0x82, 8, 5] []).map fun s => (errorOf s, s.x)) =
      some ((.faulted, 2, 0, 8), regs []) := by decide
theorem test_T8_print : ((after 9 [(0, 17)] [0x47, 0] []).map fun s => (s.out, s.pc)) =
    some ([17], 11) := by decide
theorem test_T96_print_ends_at_256 :
    ((after 254 [] [0x47, 0] []).map fun s => (s.out, s.pc, s.runState)) =
      some ([0], 256, .running) := by decide
theorem test_T11_sink_line : sinkLine 0 = "0\n" ∧ sinkLine 255 = "255\n" := by decide

/-- The lines of program P1 of 95_test_vectors.md. -/
theorem test_listing_text :
    ([.loadImmediate 0 8, .add 0 1, .print 0, .halt] : List Instr).map Instr.text =
      ["LDI R0, 8", "ADD R0, R1", "PRN R0", "HLT"] := by decide

/-! ### ALU -/

theorem test_T21_add_wraps :
    ((after 0 [(0, 250), (1, 10), (6, 0xF8)] [0xA0, 0, 1] []).map fun s => (s.x[0], s.x[1], s.x[6], s.pc)) =
      some (4, 10, 0xF8, 3) := by decide
theorem test_T23_add_to_sp_wraps :
    ((after 0 [(7, 250), (0, 10)] [0xA0, 7, 0] []).map fun s => (s.x[7], s.runState)) =
      some (4, .running) := by decide
theorem test_T24_multiply : ((after 0 [(0, 8), (1, 9)] [0xA2, 0, 1] []).map fun s => (s.x[0], s.pc)) =
    some (72, 3) := by decide
theorem test_T25_multiply_wraps : ((after 0 [(0, 16)] [0xA2, 0, 0] []).map fun s => s.x[0]) =
    some 0 := by decide
theorem test_T30_compare_unsigned :
    ((after 0 [(0, 255), (1, 0)] [0xA7, 0, 1] []).map fun s => (s.x[6], s.pc)) =
      some (0x02, 3) := by decide
theorem test_T31_compare_overwrites_its_operand :
    ((after 0 [(6, 0xF8)] [0xA7, 6, 6] []).map fun s => s.x[6]) = some 0x01 := by decide
theorem test_A14_A24_alu :
    (alu 0b001 0 1).toOption = some ⟨255, 0⟩ ∧ (alu 0b011 128 127).toOption = some ⟨0, 0b010⟩ ∧
    (alu 0b101 1 2).toOption = none := by decide

/-! ### Stack -/

theorem test_T42_push_sp_stores_the_old_pointer :
    ((after 0 [] [0x45, 7] []).map fun s => (s.mem.read 254, s.x[7], s.mem.read 255, s.pc)) =
      some (255, 254, 0, 2) := by decide
theorem test_T46_push_at_zero :
    ((after 3 [(7, 0), (0, 1)] [0x45, 0] []).map fun s => (errorOf s, s.x[7], s.mem.read 255)) =
      some ((.faulted, 1, 3, -1), 0, 0) := by decide
theorem test_T44_pop_sp_takes_the_byte :
    ((after 0 [(7, 200)] [0x46, 7] [(200, 17)]).map fun s => (s.x[7], s.mem.read 200)) =
      some (17, 17) := by decide
theorem test_T47_pop_at_top :
    ((after 0 [] [0x46, 0] []).map fun s => (errorOf s, s.x[0], s.x[7])) =
      some ((.faulted, 1, 0, 256), 0, 255) := by decide

/-! ### Control transfer -/

theorem test_T62_call_target_after_push :
    ((after 3 [] [0x50, 7] []).map fun s => (s.mem.read 254, s.x[7], s.pc)) =
      some (5, 254, 254) := by decide
theorem test_T64_call_address_before_stack :
    ((after 254 [(7, 0)] [0x50, 1] []).map fun s => (errorOf s, s.x[7])) =
      some ((.faulted, 1, 254, 256), 0) := by decide
theorem test_T61_return : ((after 13 [(7, 254)] [0x11] [(254, 5)]).map fun s => (s.pc, s.x[7])) =
    some (5, 255) := by decide
theorem test_T66_return_on_an_empty_stack :
    ((after 0 [] [0x11] []).map errorOf) = some (.faulted, 1, 0, 256) := by decide
theorem test_T68_jump : ((after 20 [(3, 12)] [0x54, 3] []).map fun s => s.pc) = some 12 := by decide
theorem test_jump_zero_extends : ((after 20 [(3, 255)] [0x54, 3] []).map fun s => s.pc) =
    some 255 := by decide
theorem test_T73_jumpIfEqual_bit0 :
    ((after 20 [(6, 0xFF), (3, 30)] [0x55, 3] []).map fun s => s.pc) = some 30 := by decide
theorem test_T78_jumpIfEqual_untaken_illegal :
    ((after 0 [(6, 4)] [0x55, 8] []).map errorOf) = some (.faulted, 2, 0, 8) := by decide
theorem test_T76_jumpIfNotEqual_falls_through :
    ((after 20 [(6, 1), (3, 12)] [0x56, 3] []).map fun s => s.pc) = some 22 := by decide
theorem test_T77_jumpIfNotEqual_without_compare :
    ((after 3 [(3, 7)] [0x56, 3] []).map fun s => s.pc) = some 7 := by decide

/-! ### Fetch, decode, the order of errors -/

theorem test_T92_unknown_opcode_at_255 :
    ((after 255 [] [0xFF] []).map errorOf) = some (.faulted, 3, 255, 0xFF) := by decide
theorem test_T94_missing_operand_before_illegal :
    ((after 254 [] [0xA0, 9] []).map errorOf) = some (.faulted, 1, 254, 256) := by decide
theorem test_T96_fetch_at_256 : ((after 256 [] [] []).map errorOf) =
    some (.faulted, 1, 256, 256) := by decide

/-! ### The host and the clocked view -/

theorem test_T100_start_with_nothing_loaded : (hostStart State.reset).runState = .halted := by decide
theorem test_T101_loaded_halt_runs :
    ((answer (step (hostStart (loadPairs State.reset [(0, 0x01)])))).map fun s => (s.runState, s.pc)) =
      some (.halted, 0) := by decide
theorem test_T102_load_ignored_in_running :
    loaderWrite (machine 0 [] [0x01] []) 9 9 = machine 0 [] [0x01] [] := by decide

/-- Pins at rest, with the given `out_ready`. -/
def pins (ready : Bool) : Inputs := ⟨false, false, 0, 0, false, ready⟩

/-- PRINT takes 3 clocks (49_core_blocks.md R213) and waits for the sink (R206). -/
theorem test_clocked_print :
    let c : CState := ⟨machine 9 [(0, 17)] [0x47, 0] [], .fetch, ⟨0, 0, 0⟩, false⟩
    (clocks defaultOpc (fun _ => pins true) 3 c).arch.out = [17] ∧
    outPort defaultOpc (clocks defaultOpc (fun _ => pins false) 9 c) = some 17 ∧
    (clocks defaultOpc (fun _ => pins false) 9 c).arch.out = [] := by decide

/-- FETCH latches an unknown opcode byte (49_core_blocks.md R202), and the fault holds it. -/
theorem test_clocked_unknown_opcode_is_latched :
    let c : CState := ⟨machine 3 [] [0xFF] [], .fetch, ⟨1, 2, 3⟩, false⟩
    (clock defaultOpc (pins true) c).ir = ⟨0xFF, 2, 3⟩ ∧
    errorOf (clock defaultOpc (pins true) c).arch = (.faulted, 3, 3, 0xFF) := by decide

/-- The pin of `prog_loaded` (10_state.md R35, R40). -/
theorem test_prog_loaded_pin :
    (statusPins State.reset).progLoaded = false ∧
    (statusPins (loaderWrite State.reset 0 1)).progLoaded = true := by decide

/-- Selectors 4 and 7 raise FatalError with the selector (T99, A24). -/
theorem test_A24_fatal_selector :
    alu 0b100 1 2 = .error (.fatal 0b100) ∧ alu 0b111 1 2 = .error (.fatal 0b111) := ⟨rfl, rfl⟩

/-! ### Witnesses: states and operands that meet the hypotheses of each statement that has some -/

/-- A running machine with canonical memory and a legal pc meets the invariant. -/
theorem inv_machine {pc : PcWord} (l : List (RegIdx × Byte)) (bytes : List Byte) {data : Memory}
    (hp : pc.toNat ≤ 256) (hw : data.wf = true) (hr : data.inRange = true) :
    Inv (machine pc l bytes data) where
  pcBound := hp
  memWf := Memory.wf_storeBytes _ bytes hw
  memRange := Memory.inRange_storeBytes _ bytes hr
  faultedIff := ⟨fun h => (nomatch (h : RunState.running = .faulted)), fun h => absurd rfl h⟩
  errPcIs := rfl
  errValLegal := rfl
  loaded := fun _ => rfl

theorem inv_reset : Inv State.reset where
  pcBound := by decide
  memWf := rfl
  memRange := rfl
  faultedIff := by decide
  errPcIs := rfl
  errValLegal := rfl
  loaded := by decide

/-- One well-formed form of each instruction. -/
def forms : List Instr :=
  [.halt, .loadImmediate 7 255, .print 7, .add 7 0, .multiply 0 7, .push 7, .pop 7, .call 7, .ret,
    .compare 6 7, .jump 7, .jumpIfEqual 7, .jumpIfNotEqual 7]

/-- A state in which each of `forms` completes: pc 253, SP 1. -/
def calm : State := machine 253 [(7, 1)] [] []

/-- The operation of an instruction completes without an error on a state. -/
def completes (i : Instr) (s : State) : Bool :=
  ((answer (exec i s)).map fun t => decide (t.runState ≠ .faulted)) = some true

theorem next_of_completes {i : Instr} {s : State} (h : completes i s = true) :
    ∃ t, exec i s = .next t ∧ t.runState ≠ .faulted := by
  unfold completes at h
  cases he : exec i s with
  | next t => exact ⟨t, rfl, by simpa [he, answer] using h⟩
  | fault r => simp [he, answer] at h
  | refused r => simp [he, answer] at h

theorem complete_all {l : List Instr} (h : ∀ i ∈ l, completes i calm = true) :
    ∀ i ∈ l, ∃ t, exec i calm = .next t ∧ t.runState ≠ .faulted :=
  fun i hi => next_of_completes (h i hi)

theorem forms_complete : ∀ i ∈ forms, i.wf = true ∧ completes i calm = true := by decide

theorem witness_ResetMeetsInvForEveryMemInit :
    ∃ a : Nat, a < 256 ∧ a = 255 ∧ (State.resetWith fun k => BitVec.ofNat 8 (k + 1)).mem.read a = 0 :=
  ⟨255, by decide, rfl, by rw [State.resetWith_mem, Memory.read_ofFun]; rfl⟩

theorem witness_LoaderLastWriteStands :
    State.reset.runState = .loading ∧ State.reset.mem.wf = true ∧
    (loadPairs State.reset [(5, 1), (255, 3), (5, 2)]).mem = [(5, 2), (255, 3)] := by decide

theorem witness_StartAndLoaderOnlyInLoading :
    ((loaderWrite State.reset 0 1).runState = .loading ∧ (loaderWrite State.reset 0 1).progLoaded = true) ∧
    (State.reset.runState = .loading ∧ State.reset.progLoaded = false) ∧ calm.runState ≠ .loading := by
  decide

theorem witness_HostActionsKeepInv : Inv State.reset ∧ Inv calm :=
  ⟨inv_reset, inv_machine _ _ (by decide) rfl rfl⟩

theorem witness_LoadedInstructionRunsFirst :
    defaultOpc.Legal ∧ (Instr.add 7 7).wf = true ∧ (Instr.loadImmediate 7 255).wf = true :=
  ⟨defaultOpc_legal, rfl, rfl⟩

theorem witness_DecodeOfEncode : defaultOpc.Legal ∧ ∀ i ∈ forms, i.wf = true :=
  ⟨defaultOpc_legal, fun i h => (forms_complete i h).1⟩

theorem witness_EncodeOfDecode :
    decodeWith defaultOpc [0xA0, 7, 0, 9] = .ok (.add 7 0, [9]) := rfl

theorem witness_IllegalOpcodeCount : defaultOpc.Legal := defaultOpc_legal

theorem witness_StepIsDefinedExactlyInRunning :
    calm.runState = .running ∧ State.reset.runState = .loading ∧
    (hostStart State.reset).runState = .halted ∧ (calm.raise (.register 8)).runState = .faulted := by
  decide

/-- At 253 a three-byte instruction still fits; at 255 only one byte is fetched. -/
theorem witness_StepRunsDecodedInstruction :
    (machine 253 [] [0xA0, 7, 0] []).runState = .running ∧
    decodeWith defaultOpc (fetchBytes (machine 253 [] [0xA0, 7, 0] [])) = .ok (.add 7 0, []) ∧
    decodeWith defaultOpc (fetchBytes (machine 255 [] [0x01] [])) = .ok (.halt, []) ∧
    fetchBytes (machine 255 [] [0x01] []) = [0x01] := ⟨rfl, rfl, rfl, rfl⟩

theorem witness_FetchAndDecodeErrorsInOrder :
    (255 < (machine 256 [] [] []).pc.toNat) ∧
    ((machine 255 [] [0xFF] []).pc.toNat ≤ 255 ∧ lookup defaultOpc 0xFF = none ∧
      (machine 255 [] [0xFF] []).mem.read 255 = 0xFF) ∧
    (lookup defaultOpc ((machine 255 [] [0x47] []).mem.read 255) = some .print ∧ 1 ≤ arity .print) ∧
    (lookup defaultOpc ((machine 254 [] [0xA0, 9] []).mem.read 254) = some .add ∧ arity .add = 2) ∧
    (253 + arity .add ≤ 255 ∧ (controlOf .add).op1IsReg = true ∧
      8 ≤ ((machine 253 [] [0xA0, 8, 0] []).mem.read 254).toNat) ∧
    ((controlOf .add).op2IsReg = true ∧ ((machine 253 [] [0xA0, 7, 8] []).mem.read 254).toNat < 8 ∧
      8 ≤ ((machine 253 [] [0xA0, 7, 8] []).mem.read 255).toNat) := by decide

theorem witness_FaultsArePrecise :
    ∃ t, stepWith defaultOpc (machine 3 [] [0xFF] []) = .next t ∧ t.runState = .faulted := ⟨_, rfl, rfl⟩

theorem witness_ErrorCodesAndValues :
    (CoreError.address (-512)).value.toInt = -512 ∧ (CoreError.address 511).value.toInt = 511 := by decide

/-- One state for each of the six cases, in the order of the statement. -/
theorem witness_AddressErrorCases :
    ∀ s ∈ [machine 256 [] [] [], machine 255 [] [0x47] [], machine 254 [] [0xA0, 9] [],
      machine 254 [] [0x50, 1] [], machine 0 [(7, 0)] [0x45, 7] [], machine 0 [] [0x46, 0] []],
    Inv s ∧ ∃ t, stepWith defaultOpc s = .next t ∧ t.errCause = .addressError := by
  intro s h
  simp only [List.mem_cons, List.not_mem_nil, or_false] at h
  obtain rfl | rfl | rfl | rfl | rfl | rfl := h <;>
    exact ⟨inv_machine _ _ (by decide) rfl rfl, _, rfl, rfl⟩

theorem witness_FatalErrorUnreachable :
    (machine 0 [] [0xFF] []).errCause ≠ .fatalError ∧
    (∃ t, stepWith defaultOpc (machine 0 [] [0xFF] []) = .next t) ∧
    ∃ t, exec (.add 8 255) (machine 0 [] [] []) = .next t := ⟨by decide, ⟨_, rfl⟩, _, rfl⟩

theorem witness_StepKeepsInv :
    Inv (machine 254 [(7, 1)] [0x45, 7] []) ∧
    ∃ t, stepWith defaultOpc (machine 254 [(7, 1)] [0x45, 7] []) = .next t :=
  ⟨inv_machine _ _ (by decide) rfl rfl, _, rfl⟩

/-- A running state is reached by one byte loaded and `start`. -/
theorem witness_ReachableStatesMeetInv :
    ∃ s, Reachable defaultOpc (fun _ => 0xFF) s ∧ s.runState = .running :=
  ⟨_, .host _ .start (.host _ (.load 255 1) .reset), by simp [hostAct, hostStart, loaderWrite]⟩

theorem witness_RunEndsByHaltOrError :
    (∃ t, stepWith defaultOpc (machine 255 [] [0x01] []) = .next t ∧ t.runState = .halted) ∧
    ∃ t, stepWith defaultOpc (machine 256 [] [] []) = .next t ∧ t.runState ≠ .running :=
  ⟨⟨_, rfl, rfl⟩, _, rfl, by decide⟩

/-- PUSH at SP = 1 writes cell 0; CALL at SP = 255 writes cell 254. -/
theorem witness_OnlyStackWritesChangeMemory :
    (∃ t, stepWith defaultOpc (machine 0 [(7, 1), (0, 9)] [0x45, 0] []) = .next t ∧
      t.mem.read 0 ≠ (machine 0 [(7, 1), (0, 9)] [0x45, 0] []).mem.read 0) ∧
    ∃ t, stepWith defaultOpc (machine 3 [] [0x50, 7] []) = .next t ∧
      t.mem.read 254 ≠ (machine 3 [] [0x50, 7] []).mem.read 254 :=
  ⟨⟨_, rfl, by decide⟩, _, rfl, by decide⟩

theorem witness_OutputGrowsByPrintOnly :
    ∃ t, stepWith defaultOpc (machine 254 [] [0x47, 7] []) = .next t ∧ t.out = [255] :=
  ⟨_, rfl, by decide⟩

theorem witness_PcFollowsSelector :
    calm.runState = .running ∧ ∀ i ∈ forms, i.wf = true ∧
      ∃ t, exec i calm = .next t ∧ t.runState ≠ .faulted :=
  ⟨rfl, fun i h => ⟨(forms_complete i h).1, next_of_completes (forms_complete i h).2⟩⟩

/-- `calm` is at pc 253, the last address of a three-byte instruction. -/
theorem witness_LoadImmediateResult : (7 : Byte).toNat < 8 ∧ calm.pc.toNat ≤ 253 := by decide
theorem witness_PrintResult : (7 : Byte).toNat < 8 ∧ (machine 254 [] [] []).pc.toNat ≤ 254 := by decide
theorem witness_AddResult :
    (7 : Byte).toNat < 8 ∧ (0 : Byte).toNat < 8 ∧ calm.pc.toNat ≤ 253 := by decide
theorem witness_MultiplyResult :
    (0 : Byte).toNat < 8 ∧ (7 : Byte).toNat < 8 ∧ calm.pc.toNat ≤ 253 := by decide

/-- Register 0 against register 7 in the three orders. -/
theorem witness_CompareResult :
    (0 : Byte).toNat < 8 ∧ (7 : Byte).toNat < 8 ∧ calm.pc.toNat ≤ 253 ∧
    (machine 0 [(0, 255)] [] []).x[0].toNat = (machine 0 [(0, 255)] [] []).x[7].toNat ∧
    (machine 0 [(7, 127)] [] []).x[0].toNat < (machine 0 [(7, 127)] [] []).x[7].toNat ∧
    (machine 0 [(0, 128), (7, 127)] [] []).x[7].toNat < (machine 0 [(0, 128), (7, 127)] [] []).x[0].toNat := by
  decide

theorem witness_PushResult :
    (7 : Byte).toNat < 8 ∧ calm.mem.wf = true ∧ calm.sp ≠ 0 ∧ calm.sp.toNat = 1 ∧ calm.pc.toNat ≤ 254 := by
  decide
theorem witness_PopResult :
    (0 : Byte).toNat < 8 ∧ (0 : Byte).toNat ≠ 7 ∧ (machine 254 [(7, 254)] [] []).sp ≠ 255 ∧
    (machine 254 [(7, 254)] [] []).pc.toNat ≤ 254 := by decide
theorem witness_CallResult :
    (7 : Byte).toNat < 8 ∧ (0 : Byte).toNat ≠ 7 ∧ calm.mem.wf = true ∧ calm.pc.toNat + 2 ≤ 255 ∧
    calm.sp ≠ 0 := by decide
theorem witness_ReturnResult : (machine 0 [(7, 254)] [] []).sp ≠ 255 ∧ (machine 0 [(7, 0)] [] []).sp ≠ 255 := by
  decide
theorem witness_JumpResult : (7 : Byte).toNat < 8 := by decide
theorem witness_JumpIfEqualResult :
    (7 : Byte).toNat < 8 ∧ (machine 0 [(6, 0xFF)] [] []).x[6].toNat % 2 = 1 ∧
    (machine 254 [(6, 0xFE)] [] []).x[6].toNat % 2 = 0 ∧ (machine 254 [(6, 0xFE)] [] []).pc.toNat ≤ 254 := by
  decide
theorem witness_JumpIfNotEqualResult :
    (7 : Byte).toNat < 8 ∧ (machine 0 [(6, 0xFE)] [] []).x[6].toNat % 2 = 0 ∧
    (machine 254 [(6, 0xFF)] [] []).x[6].toNat % 2 = 1 ∧ (machine 254 [(6, 0xFF)] [] []).pc.toNat ≤ 254 := by
  decide

/-- One ill-formed form of each of the 11 instructions with a register operand; of two illegal bytes the
first counts. -/
theorem witness_IllegalRegisterOperandRaises :
    (Instr.add 8 9).firstIllegal = some 8 ∧ (Instr.multiply 7 255).firstIllegal = some 255 ∧
    (Instr.compare 0 8).firstIllegal = some 8 ∧ (Instr.loadImmediate 8 0).firstIllegal = some 8 ∧
    (Instr.print 8).firstIllegal = some 8 ∧ (Instr.push 8).firstIllegal = some 8 ∧
    (Instr.pop 8).firstIllegal = some 8 ∧ (Instr.call 8).firstIllegal = some 8 ∧
    (Instr.jump 8).firstIllegal = some 8 ∧ (Instr.jumpIfEqual 8).firstIllegal = some 8 ∧
    (Instr.jumpIfNotEqual 8).firstIllegal = some 8 := by decide

theorem witness_StackAndReturnAddressErrors :
    (7 : Byte).toNat < 8 ∧ (machine 0 [(7, 0)] [] []).sp = 0 ∧ (machine 0 [] [] []).sp = 255 ∧
    255 < (machine 254 [] [] []).pc.toNat + 2 ∧
    ((machine 253 [(7, 0)] [] []).pc.toNat + 2 ≤ 255 ∧ (machine 253 [(7, 0)] [] []).sp = 0) := by decide

/-- Each instruction completes on `calm` (`forms_complete`) and raises on an illegal operand. -/
theorem witness_FrameOfRegisterWriters :
    (∀ i ∈ [Instr.loadImmediate 7 255, .add 7 0, .multiply 0 7, .compare 6 7],
      ∃ t, exec i calm = .next t ∧ t.runState ≠ .faulted) ∧
    ∃ t, exec (.add 8 0) calm = .next t ∧ t.runState = .faulted :=
  ⟨complete_all (by decide), _, rfl, rfl⟩

theorem witness_FrameOfNonWriters :
    (∀ i ∈ [Instr.halt, .print 7, .jump 7, .jumpIfEqual 7, .jumpIfNotEqual 7],
      ∃ t, exec i calm = .next t ∧ t.runState ≠ .faulted) ∧
    ∃ t, exec (.jump 8) calm = .next t ∧ t.runState = .faulted :=
  ⟨complete_all (by decide), _, rfl, rfl⟩

theorem witness_FrameOfPushAndCall :
    (∀ i ∈ [Instr.push 7, .call 7], ∃ t, exec i calm = .next t ∧ t.runState ≠ .faulted) ∧
    ∃ t, exec (.push 7) (machine 0 [(7, 0)] [] []) = .next t ∧ t.runState = .faulted :=
  ⟨complete_all (by decide), _, rfl, rfl⟩

theorem witness_FrameOfPopAndReturn :
    (∀ i ∈ [Instr.pop 7, .ret], ∃ t, exec i calm = .next t ∧ t.runState ≠ .faulted) ∧
    ∃ t, exec .ret (machine 0 [] [] []) = .next t ∧ t.runState = .faulted :=
  ⟨complete_all (by decide), _, rfl, rfl⟩

/-- ADD R0, R1 in two states that differ in every register it does not read. -/
theorem witness_OutcomeDependsOnReadRegistersOnly :
    (Instr.add 0 1).wf = true ∧
    (∀ k ∈ regReads calm (.add 0 1), (#v[0, 0, 2, 3, 4, 5, 6, 7] : Vector Byte 8)[k] = calm.x[k]) ∧
    completes (.add 0 1) calm = true := by decide

theorem witness_RegisterFileContract : (7 : Byte).toNat < 8 ∧ 8 ≤ (8 : Byte).toNat := by decide

theorem witness_MemoryContract :
    calm.mem.wf = true ∧ (0 ≤ (255 : Int) ∧ (255 : Int) < 256 ∧ (0 : Int) ≠ 255) ∧ (-1 : Int) < 0 ∧
    (256 : Int) ≤ 256 := by decide

theorem witness_CanonicalMemoriesAreEqualData :
    Memory.wf [(3, 1), (255, 2)] = true ∧ Memory.wf (Memory.write [(3, 1)] 255 2) = true ∧
    ∀ a, Memory.read [(3, 1), (255, 2)] a = Memory.read (Memory.write [(3, 1)] 255 2) a :=
  ⟨rfl, rfl, fun _ => rfl⟩

theorem witness_AluSubtractCompareAndUnsupported :
    (3 : BitVec 3).toNat < 4 ∧ 4 ≤ (4 : BitVec 3).toNat ∧ 4 ≤ (7 : BitVec 3).toNat := by decide

/-- As many bytes as SP allows, none at SP = 0, and 256 bytes. -/
theorem witness_StackIsLastInFirstOut :
    (machine 0 [(7, 2)] [] []).mem.wf = true ∧
    ([1, 2] : List Byte).length ≤ (machine 0 [(7, 2)] [] []).sp.toNat ∧
    ([] : List Byte).length ≤ (machine 0 [(7, 0)] [] []).sp.toNat ∧
    256 ≤ (List.replicate 256 (0 : Byte)).length :=
  ⟨rfl, by decide, by decide, Nat.le_of_eq List.length_replicate.symm⟩

/-- CALL at 253, the last address with a legal return address. -/
theorem witness_ReturnResumesAfterCall :
    calm.mem.wf = true ∧ calm.runState = .running ∧ ∃ t u : State, exec (.call 1) calm = .next t ∧
      t.runState ≠ .faulted ∧ u.sp = t.sp ∧ u.mem.read u.sp.toNat = t.mem.read t.sp.toNat :=
  ⟨rfl, rfl, _, _, rfl, by decide, rfl, rfl⟩

theorem witness_CompareThenConditionalJump :
    (∃ t, exec (.compare 0 0) calm = .next t) ∧ (∃ t, exec (.compare 0 7) calm = .next t) ∧
    calm.x[0] ≠ calm.x[7] := ⟨⟨_, rfl⟩, ⟨_, rfl⟩, by decide⟩

/-- The pushed cell 253 as the first, the second and the third byte of a fetch, and outside it, also where
the fetch is cut short by the end of memory. -/
theorem witness_FetchSeesPushedByte :
    (machine 0 [(7, 254)] [] []).mem.wf = true ∧ (∃ t, push (machine 0 [(7, 254)] [] []) 1 = .ok t) ∧
    (253 : PcWord).toNat + 0 = (machine 0 [(7, 254)] [] []).sp.toNat - 1 ∧
    (252 : PcWord).toNat + 1 = (machine 0 [(7, 254)] [] []).sp.toNat - 1 ∧
    (251 : PcWord).toNat + 2 = (machine 0 [(7, 254)] [] []).sp.toNat - 1 ∧
    ∀ p ∈ [(250 : PcWord), 254, 256], ∀ k, k < 3 →
      p.toNat + k ≠ (machine 0 [(7, 254)] [] []).sp.toNat - 1 :=
  ⟨rfl, ⟨_, rfl⟩, rfl, rfl, rfl, by decide⟩

/-- The clocked view at the FETCH clock of an instruction. -/
def atFetch (s : State) : CState := ⟨s, .fetch, ⟨0, 0, 0⟩, false⟩

theorem witness_ClockedViewRefinesStep :
    (atFetch calm).arch.runState = .running ∧ (atFetch calm).phase = .fetch ∧ (pins true).rst = false ∧
    ∀ k : Nat, ∃ j, k ≤ j ∧ (pins (decide (j % 2 = 0))).outReady = true :=
  ⟨rfl, rfl, rfl, fun k => ⟨2 * k, by omega, by simp [pins]⟩⟩

theorem witness_ClockCounts :
    (pins true).rst = false ∧ (pins true).outReady = true ∧
    (∃ t, stepWith defaultOpc (machine 253 [] [0xA0, 7, 0] []) = .next t ∧ t.runState ≠ .faulted) ∧
    decodeWith defaultOpc (fetchBytes (machine 253 [] [0xA0, 7, 0] [])) = .ok (.add 7 0, []) ∧
    ∃ t, stepWith defaultOpc (machine 256 [] [] []) = .next t ∧ t.runState = .faulted :=
  ⟨rfl, rfl, ⟨_, rfl, by decide⟩, rfl, _, rfl, rfl⟩

/-- PRINT's EXEC phase offers a byte; its FETCH phase does not. -/
theorem witness_OutputHandshake :
    (pins false).rst = false ∧ (pins false).outReady = false ∧ (pins true).outReady = true ∧
    outPort defaultOpc { atFetch (machine 9 [] [0x47, 7] []) with phase := .exec, ir := ⟨0x47, 7, 0⟩ } =
      some 255 ∧
    outPort defaultOpc (atFetch (machine 9 [] [0x47, 7] [])) = none := by decide

/-- The loader writes in LOADING, PUSH in EXEC. -/
theorem witness_MemoryPortCarriesEveryWrite :
    (memPort defaultOpc { pins true with ldWe := true } CState.reset).we = true ∧
    (memPort defaultOpc (pins true)
      { atFetch (machine 9 [] [0x45, 7] []) with phase := .exec, ir := ⟨0x45, 7, 0⟩ }).we = true := by
  decide

theorem witness_ClocksOutsideRunning :
    ({ pins true with rst := true } : Inputs).rst = true ∧ (pins true).rst = false ∧
    (atFetch (hostStart State.reset)).arch.runState = .halted ∧
    (atFetch (calm.raise (.register 8))).arch.runState = .faulted := by decide

/-- The five cases of a LOADING clock: the loader's write enable, `start`, and whether a byte was loaded
before. -/
theorem witness_ClocksOutsideRunning_loading :
    CState.reset.arch.runState = .loading ∧ CState.reset.arch.progLoaded = false ∧
    (loaderWrite State.reset 255 1).runState = .loading ∧
    (loaderWrite State.reset 255 1).progLoaded = true ∧
    ∀ we ∈ [false, true], ∀ st ∈ [false, true],
      ({ pins true with ldWe := we, start := st } : Inputs).rst = false ∧
      ({ pins true with ldWe := we, start := st } : Inputs).ldWe = we ∧
      ({ pins true with ldWe := we, start := st } : Inputs).start = st := by decide

/-- ADD at 253, the last address where its bytes are all fetched, with a legal and an illegal operand, and a
PRINT that waits in EXEC for two further clocks. -/
theorem witness_TraceRecordsEveryExecutedInstruction :
    (∀ s ∈ [machine 253 [] [0xA0, 7, 0] [], machine 253 [] [0xA0, 8, 0] []],
      (atFetch s).arch.runState = .running ∧ (atFetch s).phase = .fetch ∧ (atFetch s).waited = false ∧
      lookup defaultOpc (s.mem.read s.pc.toNat) = some .add ∧ s.pc.toNat + arity .add ≤ 255) ∧
    (pins false).rst = false ∧
    lookup defaultOpc ((machine 9 [] [0x47, 7] []).mem.read 9) = some .print ∧
    (∀ i, i ≤ 2 → (clocks defaultOpc (fun _ => pins false) (1 + arity .print + i)
      (atFetch (machine 9 [] [0x47, 7] []))).phase = .exec) ∧
    (CState.reset.phase ≠ .exec ∧ CState.reset.waited = false) := by decide

/-- A faulted state that meets the invariant. -/
theorem witness_StatusPinsReport :
    Inv calm ∧ Inv (calm.raise (.unknownOpcode 0xFF)) ∧
    (statusPins (calm.raise (.unknownOpcode 0xFF))).faulted = true :=
  ⟨inv_machine _ _ (by decide) rfl rfl,
    { pcBound := by decide
      memWf := rfl
      memRange := rfl
      faultedIff := by decide
      errPcIs := rfl
      errValLegal := ⟨by decide, by decide⟩
      loaded := by decide }, rfl⟩

/-- At the last addresses the three fetch phases still latch; one address further they do not. -/
theorem witness_FetchPhasesLatchTheirByte :
    (pins true).rst = false ∧ calm.runState = .running ∧
    (machine 255 [] [] []).pc.toNat ≤ 255 ∧ ¬ (machine 256 [] [] []).pc.toNat ≤ 255 ∧
    (machine 254 [] [] []).pc.toNat + 1 ≤ 255 ∧ ¬ (machine 255 [] [] []).pc.toNat + 1 ≤ 255 ∧
    (machine 253 [] [] []).pc.toNat + 2 ≤ 255 ∧ ¬ (machine 254 [] [] []).pc.toNat + 2 ≤ 255 := by decide

end Sys2Proof.Tests
end

section
/-! SUPPORT. The frame of an instruction that writes one register and moves past its own bytes, and the
new pc as a number. -/

namespace Sys2Proof.Machine

/-- Moving past an instruction's bytes is plain addition wherever the sum fits the 9 bits of the pc
(10_state.md R29). -/
theorem State.advance_pc_toNat (s : State) {n : PcWord} (h : s.pc.toNat + n.toNat < 2 ^ 9) :
    (s.advance n).pc.toNat = s.pc.toNat + n.toNat := BitVec.toNat_add_of_lt h

theorem sameRegsBut_setReg_advance (s : State) (i : RegIdx) (v : Byte) (n : PcWord) :
    sameRegsBut [i] s ((s.setReg i v).advance n) :=
  fun _ hk => s.reg_setReg_ne v (List.ne_of_not_mem_cons hk)

theorem sameMem_setReg_advance (s : State) (i : RegIdx) (v : Byte) (n : PcWord) :
    sameMem s ((s.setReg i v).advance n) := fun _ => rfl

theorem sameControl_setReg_advance (s : State) (i : RegIdx) (v : Byte) (n : PcWord) :
    sameControl s ((s.setReg i v).advance n) := ⟨rfl, rfl, rfl, rfl, rfl⟩

end Sys2Proof.Machine
end

section
/-! PROOFS. The system and move instructions (spec/41_system_move.md). -/

namespace Sys2Proof.Machine

/-- Settles O25: the answer of LOAD_IMMEDIATE is the state with the one register written and the pc moved
past three bytes; every other field is the frame of that write. -/
theorem loadImmediateResult : Obligations.LoadImmediateResult := by
  refine ⟨fun _ _ _ => rfl, fun s r imm hr => ?_⟩
  refine ⟨_, exec_loadImmediate s imm hr, ?written, sameRegsBut_setReg_advance _ _ _ _,
    sameMem_setReg_advance _ _ _ _, rfl, sameControl_setReg_advance _ _ _ _, rfl, fun hpc => ?pc⟩
  case written => exact s.reg_setReg_self ⟨r.toNat, hr⟩ imm
  case pc =>
    have hfits : s.pc.toNat + (3 : PcWord).toNat < 2 ^ 9 := Nat.lt_of_le_of_lt (Nat.add_le_add_right hpc _) (by decide)
    exact State.advance_pc_toNat (s.setReg ⟨r.toNat, hr⟩ imm) hfits

end Sys2Proof.Machine
end

section
/-! SUPPORT. The whole effect of an instruction of three bytes that writes one register. -/

namespace Sys2Proof.Machine

/-- Where the three bytes fit below address 256, the new pc is a plain sum (10_state.md R29). -/
theorem State.advance_three_pc_toNat (s : State) (h : s.pc.toNat ≤ 253) :
    (s.advance 3).pc.toNat = s.pc.toNat + 3 :=
  s.advance_pc_toNat (n := 3) (Nat.lt_of_le_of_lt (Nat.add_le_add_right h 3) (by decide))

/-- What writing register `i` and moving past three bytes leaves unchanged, and the new pc. -/
theorem setReg_advance_three_frame (s : State) (i : RegIdx) (v : Byte) :
    sameRegsBut [i] s ((s.setReg i v).advance 3) ∧ sameMem s ((s.setReg i v).advance 3) ∧
      ((s.setReg i v).advance 3).out = s.out ∧ sameControl s ((s.setReg i v).advance 3) ∧
      ((s.setReg i v).advance 3).pc = s.pc + 3 ∧
      (s.pc.toNat ≤ 253 → ((s.setReg i v).advance 3).pc.toNat = s.pc.toNat + 3) :=
  ⟨sameRegsBut_setReg_advance s i v 3, sameMem_setReg_advance s i v 3, rfl,
    sameControl_setReg_advance s i v 3, rfl, (s.setReg i v).advance_three_pc_toNat⟩

/-- The register that was written reads back as the value, after the pc has moved too. -/
theorem setReg_advance_x_self (s : State) (i : RegIdx) (v : Byte) (n : PcWord) :
    ((s.setReg i v).advance n).x[i] = v := s.reg_setReg_self i v

end Sys2Proof.Machine
end

section
/-! PROOFS. The ALU and the two instructions that write its result to a register (spec/42_alu.md). -/

namespace Sys2Proof.Machine

/-- Settles O27: register `ra` receives the 8-bit sum; every other field is the frame of that write. -/
theorem addResult : Obligations.AddResult := by
  refine ⟨fun _ _ _ => rfl, fun s ra rb ha hb => ?_⟩
  refine ⟨_, exec_add s ha hb, ?written, setReg_advance_three_frame s _ _⟩
  case written =>
    exact (congrArg BitVec.toNat (setReg_advance_x_self s ⟨ra.toNat, ha⟩ _ 3)).trans
      (BitVec.toNat_add _ _)

/-- Settles O28: register `ra` receives the low byte of the product; every other field is the frame of that
write. -/
theorem multiplyResult : Obligations.MultiplyResult := by
  refine ⟨fun _ _ _ => rfl, fun s ra rb ha hb => ?_⟩
  refine ⟨_, exec_multiply s ha hb, ?written, setReg_advance_three_frame s _ _⟩
  case written =>
    exact (congrArg BitVec.toNat (setReg_advance_x_self s ⟨ra.toNat, ha⟩ _ 3)).trans
      (BitVec.toNat_mul _ _)

/-- The two readings of a byte, unsigned and two's complement, agree modulo 256. -/
theorem toNat_eq_toInt_emod (b : Byte) : (b.toNat : Int) = b.toInt % 256 := by
  have hlt : b.toNat < 256 := b.isLt
  rw [BitVec.toInt_eq_toNat_bmod]
  calc (b.toNat : Int) = b.toNat % 256 := by omega
    _ = (b.toNat : Int).bmod 256 % 256 := Int.bmod_emod.symm

/-- The low byte of a product does not depend on how the operands are read (42_alu.md R133). -/
theorem toNat_mul_eq_toInt_mul_emod (a b : Byte) :
    ((a * b).toNat : Int) = a.toInt * b.toInt % 256 :=
  calc ((a * b).toNat : Int) = (a * b).toInt % 256 := toNat_eq_toInt_emod _
    _ = (a.toInt * b.toInt).bmod 256 % 256 := by rw [BitVec.toInt_mul]
    _ = a.toInt * b.toInt % 256 := Int.bmod_emod

/-- Settles O47: both functions work on 8-bit words, so their results are taken modulo 256; the signed
reading of the product is `toNat_mul_eq_toInt_mul_emod`. -/
theorem aluAddAndMultiply : Obligations.AluAddAndMultiply := fun a b =>
  ⟨⟨_, alu_add a b, rfl, BitVec.toNat_add a b⟩,
    ⟨_, alu_mul a b, rfl, BitVec.toNat_mul a b, toNat_mul_eq_toInt_mul_emod a b⟩⟩

end Sys2Proof.Machine
end

section
/-! SUPPORT. The frame of a jump to a byte, and the new pc as a number. -/

namespace Sys2Proof.Machine

/-- The 9-bit pc holds every byte: widening one with zeros keeps its value (44_control_transfer.md R170
REG, R171). -/
theorem State.jumpTo_pc_toNat (s : State) (v : Byte) : (s.jumpTo v).pc.toNat = v.toNat :=
  BitVec.toNat_setWidth_of_le (by decide)

theorem sameRegsBut_jumpTo (s : State) (v : Byte) : sameRegsBut [] s (s.jumpTo v) := fun _ _ => rfl

theorem sameMem_jumpTo (s : State) (v : Byte) : sameMem s (s.jumpTo v) := fun _ => rfl

theorem sameControl_jumpTo (s : State) (v : Byte) : sameControl s (s.jumpTo v) :=
  ⟨rfl, rfl, rfl, rfl, rfl⟩

end Sys2Proof.Machine
end

section
/-! PROOFS. Control transfer (spec/44_control_transfer.md). -/

namespace Sys2Proof.Machine

/-- Settles O34: the answer of JUMP is the state with only the pc replaced, by the named register's byte
widened with zeros; every other field is the frame of that jump. -/
theorem jumpResult : Obligations.JumpResult := by
  refine ⟨fun _ _ => rfl, fun s r hr => ?_⟩
  exact ⟨_, exec_jump s hr, s.jumpTo_pc_toNat _, sameRegsBut_jumpTo s _, sameMem_jumpTo s _,
    s.jumpTo_out _, sameControl_jumpTo s _⟩

end Sys2Proof.Machine
end

section
/-! SUPPORT. The decoder and the encoder meet: what the operand reader answers on enough and on too few
bytes, and how an instruction's bytes split into opcode and operands (spec/30_encoding.md R80 to R84). -/

namespace Sys2Proof

/-! ### The operand reader -/

/-- The instruction of an operation with the given operand bytes; bytes past its arity are not used. -/
def Instr.ofOperands : Mnemonic → Byte → Byte → Instr
  | .halt, _, _ => .halt
  | .loadImmediate, a, b => .loadImmediate a b
  | .print, a, _ => .print a
  | .add, a, b => .add a b
  | .multiply, a, b => .multiply a b
  | .push, a, _ => .push a
  | .pop, a, _ => .pop a
  | .call, a, _ => .call a
  | .ret, _, _ => .ret
  | .compare, a, b => .compare a b
  | .jump, a, _ => .jump a
  | .jumpIfEqual, a, _ => .jumpIfEqual a
  | .jumpIfNotEqual, a, _ => .jumpIfNotEqual a

@[simp] theorem Instr.ofOperands_mnemonic (n : Mnemonic) (a b : Byte) :
    (Instr.ofOperands n a b).mnemonic = n := by cases n <;> rfl

theorem arity_le_two (n : Mnemonic) : arity n ≤ 2 := by cases n <;> decide

/-- Only the operand bytes within the arity matter. -/
theorem Instr.ofOperands_congr {n : Mnemonic} {a a' b b' : Byte} (ha : 1 ≤ arity n → a = a')
    (hb : arity n = 2 → b = b') : Instr.ofOperands n a b = Instr.ofOperands n a' b' := by
  cases n <;> simp [arity] at ha hb <;> subst_vars <;> rfl

/-- With enough operand bytes the instruction of the operation is taken, and the bytes after it are left. -/
theorem takeOperands_enough {n : Mnemonic} {bs : List Byte} (h : arity n ≤ bs.length) :
    takeOperands n bs = .ok (.ofOperands n (bs.getD 0 0) (bs.getD 1 0), bs.drop (arity n)) := by
  cases n <;> rcases bs with _ | ⟨a, _ | ⟨b, tl⟩⟩ <;> simp [arity] at h <;> rfl

/-- With too few operand bytes the first one that is not there is reported. -/
theorem takeOperands_missing {n : Mnemonic} {bs : List Byte} (h : bs.length < arity n) :
    takeOperands n bs = .error (.missingByte (bs.length + 1)) := by
  have h2 := arity_le_two n
  match bs with
  | [] =>
    cases n with
    | halt | ret => exact absurd h (Nat.lt_irrefl 0)
    | _ => rfl
  | [_] =>
    cases n with
    | loadImmediate | add | multiply | compare => rfl
    | halt | ret => exact absurd h (Nat.not_lt_zero 1)
    | _ => exact absurd h (Nat.lt_irrefl 1)
  | _ :: _ :: _ =>
    rw [List.length_cons, List.length_cons] at h
    omega

/-! ### The decoder, case by case -/

theorem decodeWith_unknown {m : OpcodeMap} {opc : Byte} (h : lookup m opc = none) (bs : List Byte) :
    decodeWith m (opc :: bs) = .error (.unknownOpcode opc) := by simp [decodeWith, h]

theorem decodeWith_missing {m : OpcodeMap} {opc : Byte} {n : Mnemonic} {bs : List Byte}
    (h : lookup m opc = some n) (hl : bs.length < arity n) :
    decodeWith m (opc :: bs) = .error (.missingByte (bs.length + 1)) := by
  simp [decodeWith, h, takeOperands_missing hl]

theorem decodeWith_illegal {m : OpcodeMap} {opc b : Byte} {n : Mnemonic} {bs rest : List Byte}
    {i : Instr} (h : lookup m opc = some n) (ht : takeOperands n bs = .ok (i, rest))
    (hb : i.firstIllegal = some b) : decodeWith m (opc :: bs) = .error (.badRegister b) := by
  simp [decodeWith, h, ht, hb]

theorem decodeWith_legal {m : OpcodeMap} {opc : Byte} {n : Mnemonic} {bs rest : List Byte}
    {i : Instr} (h : lookup m opc = some n) (ht : takeOperands n bs = .ok (i, rest))
    (hw : i.wf = true) : decodeWith m (opc :: bs) = .ok (i, rest) := by
  simp [decodeWith, h, ht, Instr.firstIllegal_eq_none.2 hw]

/-! ### The encoder -/

/-- The bytes of an instruction after its opcode. -/
def Instr.operandBytes (i : Instr) : List Byte := (encodeWith defaultOpc i).tail

theorem encodeWith_eq_cons (m : OpcodeMap) (i : Instr) :
    encodeWith m i = m i.mnemonic :: i.operandBytes := by cases i <;> rfl

theorem encodeWith_length (m : OpcodeMap) (i : Instr) : (encodeWith m i).length = i.length := by
  cases i <;> rfl

/-- The operand reader gives an instruction back from its own operand bytes. -/
theorem takeOperands_operandBytes (i : Instr) (rest : List Byte) :
    takeOperands i.mnemonic (i.operandBytes ++ rest) = .ok (i, rest) := by cases i <;> rfl

/-- The operand reader takes no bytes but the operand bytes of its answer. -/
theorem eq_operandBytes_of_takeOperands {n : Mnemonic} {bs rest : List Byte} {i : Instr}
    (h : takeOperands n bs = .ok (i, rest)) : bs = i.operandBytes ++ rest := by
  cases n <;> rcases bs with _ | ⟨a, _ | ⟨b, tl⟩⟩ <;>
    simp [takeOperands, oneOperand, twoOperands] at h <;> obtain ⟨rfl, rfl⟩ := h <;> rfl

end Sys2Proof
end

section
/-! PROOFS. Encoding and decoding (spec/30_encoding.md). -/

namespace Sys2Proof

/-- Settles O8: the table finds the operation by its own byte, the operand reader takes the instruction's
own operand bytes, and no register operand is illegal. -/
theorem decodeOfEncode : Obligations.DecodeOfEncode := fun m i rest hm hw => by
  rw [encodeWith_eq_cons, List.cons_append]
  exact decodeWith_legal (lookup_encode hm i.mnemonic) (takeOperands_operandBytes i rest) hw

/-- Settles O9: the decoder inverted gives the opcode as the map's byte of the operation and the other
bytes as the operand bytes taken. -/
theorem encodeOfDecode : Obligations.EncodeOfDecode := fun m bs i rest h => by
  obtain ⟨opc, tail, n, rfl, hl, ht, hw⟩ := decodeWith_ok h
  refine ⟨hw, ?_⟩
  rw [encodeWith_eq_cons, takeOperands_mnemonic ht, lookup_some hl, List.cons_append,
    ← eq_operandBytes_of_takeOperands ht]

/-- The byte values the table knows are, up to order, the 13 values of the map. -/
theorem filter_lookup_isSome_perm {m : OpcodeMap} (hm : m.Legal) :
    ((List.range 256).filter fun b => (lookup m (BitVec.ofNat 8 b)).isSome).Perm
      (Mnemonic.all.map fun n => (m n).toNat) := by
  have hinj (a b : Mnemonic) (hne : a ≠ b) : (m a).toNat ≠ (m b).toNat :=
    fun h => hne (hm.1 a b (BitVec.eq_of_toNat_eq h))
  have hnodup : Mnemonic.all.Nodup := by decide
  refine (List.perm_ext_iff_of_nodup (List.Pairwise.filter _ List.nodup_range)
    (List.Pairwise.map _ hinj hnodup)).2 fun b => ?_
  simp only [List.mem_filter, List.mem_range, List.mem_map, Option.isSome_iff_exists]
  constructor
  · rintro ⟨hb, n, hn⟩
    refine ⟨n, n.mem_all, ?_⟩
    rw [lookup_some hn, BitVec.toNat_ofNat, Nat.mod_eq_of_lt hb]
  · rintro ⟨n, -, rfl⟩
    exact ⟨(m n).isLt, n, by rw [BitVec.ofNat_toNat, BitVec.setWidth_eq, lookup_encode hm]⟩

/-- Settles O10: the 256 values split into the 13 of the map and the rest, and 0xFF is none of the 13. -/
theorem illegalOpcodeCount : Obligations.IllegalOpcodeCount := fun m hm => by
  refine ⟨?_, lookup_none.2 hm.2⟩
  have hsome := (filter_lookup_isSome_perm hm).length_eq
  have hsplit := List.length_eq_countP_add_countP (l := List.range 256)
    fun b => (lookup m (BitVec.ofNat 8 b)).isSome
  have hnone : (fun b : Nat => decide ¬(lookup m (BitVec.ofNat 8 b)).isSome = true) =
      fun b => (lookup m (BitVec.ofNat 8 b)).isNone := by
    funext b
    cases lookup m (BitVec.ofNat 8 b) <;> rfl
  rw [hnone, List.countP_eq_length_filter, List.countP_eq_length_filter, hsome, List.length_map,
    List.length_range] at hsplit
  have h13 : Mnemonic.all.length = 13 := rfl
  omega

/-- Settles O7: each word is the encoding of its instruction under the default map, which is legal. -/
theorem writtenWordsDecode : Obligations.WrittenWordsDecode := by
  have word (i : Instr) (hw : i.wf = true) : decode (encode i) = .ok (i, []) := by
    simpa [decode, encode] using decodeOfEncode defaultOpc i [] defaultOpc_legal hw
  exact ⟨word .halt rfl, word (.loadImmediate 3 255) rfl, word (.print 6) rfl, word (.add 1 2) rfl,
    word (.multiply 7 0) rfl, word (.push 5) rfl, word (.pop 4) rfl, word (.call 1) rfl, word .ret rfl,
    word (.compare 0 2) rfl, word (.jump 3) rfl, word (.jumpIfEqual 3) rfl,
    word (.jumpIfNotEqual 3) rfl⟩

end Sys2Proof
end

section
/-! SUPPORT. The rules of a push and a pop as state updates, the new pc after two bytes, the flags byte as
the conditional jumps read it, and what raising leaves. -/

namespace Sys2Proof.Machine

/-! ### Raising -/

theorem raised_raise (s : State) (e : CoreError) : raised s (s.raise e) e :=
  ⟨rfl, rfl, rfl, rfl, rfl, rfl, rfl, rfl, rfl⟩

/-- The byte a register check finds is no register number. -/
theorem eight_le_of_firstIllegal {i : Instr} {b : Byte} (h : i.firstIllegal = some b) : 8 ≤ b.toNat := by
  have hb : legalReg b = false := by simpa using List.find?_some h
  simpa [legalReg] using hb

theorem CoreError.cause_ne_noError (e : CoreError) : e.cause ≠ .noError := by cases e <;> nofun

/-! ### The program counter -/

/-- Where the two bytes fit below address 256, the new pc is a plain sum (10_state.md R29). -/
theorem State.advance_two_pc_toNat (s : State) (h : s.pc.toNat ≤ 254) :
    (s.advance 2).pc.toNat = s.pc.toNat + 2 :=
  s.advance_pc_toNat (n := 2) (Nat.lt_of_le_of_lt (Nat.add_le_add_right h 2) (by decide))

/-! ### The state after a push -/

theorem pushAddr_of_ne_zero {s : State} (h : s.sp.toNat ≠ 0) : pushAddr s = (s.sp.toNat - 1 : Nat) := by
  unfold pushAddr; omega

theorem sp_toNat_ne_zero {s : State} (h : s.sp ≠ 0) : s.sp.toNat ≠ 0 :=
  fun h0 => h (BitVec.eq_of_toNat_eq h0)

theorem toNat_sub_one {b : Byte} (h : b.toNat ≠ 0) : (b - 1).toNat = b.toNat - 1 :=
  BitVec.toNat_sub_of_le (BitVec.le_def.2 (Nat.one_le_iff_ne_zero.2 h))

@[simp] theorem State.pushed_x (s : State) (v : Byte) :
    (s.pushed v).x = s.x.set Config.spIdx (s.sp - 1) := rfl

@[simp] theorem State.pushed_sp (s : State) (v : Byte) : (s.pushed v).sp = s.sp - 1 :=
  State.reg_setReg_self _ _ _

theorem State.pushed_sp_toNat {s : State} (v : Byte) (h : s.sp.toNat ≠ 0) :
    (s.pushed v).sp.toNat = s.sp.toNat - 1 := by rw [State.pushed_sp, toNat_sub_one h]

/-- The pushed byte stands below the old stack pointer. -/
theorem State.pushed_read_self {s : State} (v : Byte) (hw : s.mem.wf = true) :
    (s.pushed v).mem.read (s.sp.toNat - 1) = v := Memory.read_write_same _ v hw

theorem State.pushed_read_ne {s : State} (v : Byte) {a : Nat} (h : a ≠ s.sp.toNat - 1) :
    (s.pushed v).mem.read a = s.mem.read a := Memory.read_write_ne s.mem v h

theorem sameRegsBut_pushed (s : State) (v : Byte) : sameRegsBut [7] s (s.pushed v) :=
  fun _ hk => State.reg_setReg_ne _ _ (List.ne_of_not_mem_cons hk)

/-- Every byte but the one at `pushAddr` stays (43_stack.md R151). -/
theorem State.pushed_read_of_ne_pushAddr {s : State} (v : Byte) (h : s.sp.toNat ≠ 0) (a : Nat)
    (ha : (a : Int) ≠ pushAddr s) : (s.pushed v).mem.read a = s.mem.read a :=
  State.pushed_read_ne v fun e => ha (by rw [pushAddr_of_ne_zero h, e])

/-! ### The state after a pop -/

theorem sp_toNat_ne_top {s : State} (h : s.sp ≠ 255) : s.sp.toNat ≠ 255 :=
  fun h0 => h (BitVec.eq_of_toNat_eq h0)

theorem toNat_add_one {b : Byte} (h : b.toNat ≠ 255) : (b + 1).toNat = b.toNat + 1 := by
  have hlt : b.toNat < 256 := b.isLt
  exact BitVec.toNat_add_of_lt (y := 1) (by show b.toNat + 1 < 256; omega)

@[simp] theorem State.popped_x (s : State) : s.popped.x = s.x.set Config.spIdx (s.sp + 1) := rfl

@[simp] theorem State.popped_sp (s : State) : s.popped.sp = s.sp + 1 := State.reg_setReg_self _ _ _

theorem State.popped_sp_toNat {s : State} (h : s.sp.toNat ≠ 255) :
    s.popped.sp.toNat = s.sp.toNat + 1 := by rw [State.popped_sp, toNat_add_one h]

theorem sameRegsBut_popped (s : State) : sameRegsBut [7] s s.popped :=
  fun _ hk => State.reg_setReg_ne _ _ (List.ne_of_not_mem_cons hk)

/-- The popped registers with the destination written: nothing but SP and the destination changes. -/
theorem sameRegsBut_popped_setReg (s : State) (i : RegIdx) (v : Byte) :
    sameRegsBut [7, i] s (s.popped.setReg i v) := fun k hk => by
  obtain ⟨h7, hi⟩ : k ≠ 7 ∧ k ≠ i := by simpa using hk
  exact (State.reg_setReg_ne s.popped v hi).trans (State.reg_setReg_ne s _ h7)

/-! ### The flags byte -/

theorem compareBits_of_eq {a b : Byte} (h : a.toNat = b.toNat) : compareBits a b = 0b001 := if_pos h

theorem compareBits_of_gt {a b : Byte} (h : b.toNat < a.toNat) : compareBits a b = 0b010 := by
  rw [compareBits, if_neg (by omega), if_pos h]

theorem compareBits_of_lt {a b : Byte} (h : a.toNat < b.toNat) : compareBits a b = 0b100 := by
  rw [compareBits, if_neg (by omega), if_neg (by omega)]

/-- Bit 0 of the flags byte says that the compared bytes are equal (42_alu.md R134). -/
theorem flagsByte_compareBits_eq (a b : Byte) :
    (flagsByte (compareBits a b)).getLsbD Config.flEq = decide (a = b) := by
  obtain h | h | h := Nat.lt_trichotomy a.toNat b.toNat
  · rw [compareBits_of_lt h, decide_eq_false (by rintro rfl; omega)]; rfl
  · rw [compareBits_of_eq h, decide_eq_true (BitVec.eq_of_toNat_eq h)]; rfl
  · rw [compareBits_of_gt h, decide_eq_false (by rintro rfl; omega)]; rfl

/-- Bit 0 of a register, as arithmetic. -/
theorem State.eqFlag_eq (s : State) : s.eqFlag = decide (s.x[6].toNat % 2 = 1) :=
  Nat.testBit_zero s.x[6].toNat

end Sys2Proof.Machine
end

section
/-! PROOFS. What each instruction does (spec/41_system_move.md, 42_alu.md, 43_stack.md,
44_control_transfer.md). -/

namespace Sys2Proof.Machine

/-- Settles O24: the answer of HALT is the state with the run state replaced. -/
theorem haltResult : Obligations.HaltResult := fun s =>
  ⟨_, exec_halt s, rfl, rfl, fun _ _ => rfl, fun _ => rfl, rfl, rfl, rfl, rfl, rfl⟩

/-- Settles O26: the answer of PRINT is the state with the register's byte appended and the pc moved past
two bytes. -/
theorem printResult : Obligations.PrintResult :=
  ⟨fun _ _ => rfl, fun s _ hr => ⟨_, exec_print s hr, rfl, fun _ _ => rfl, fun _ => rfl,
    ⟨rfl, rfl, rfl, rfl, rfl⟩, rfl, s.advance_two_pc_toNat⟩⟩

/-- Settles O29: the three orders of two numbers give the three flag bytes; the rest is the frame of a write
to register 6. -/
theorem compareResult : Obligations.CompareResult := fun s ra rb ha hb => by
  have flags : ((s.setReg Config.flIdx
      (flagsByte (compareBits s.x[ra.toNat] s.x[rb.toNat]))).advance 3).x[6] =
      flagsByte (compareBits s.x[ra.toNat] s.x[rb.toNat]) := setReg_advance_x_self s Config.flIdx _ 3
  refine ⟨_, exec_compare s ha hb, fun h => ?equal, fun h => ?above, fun h => ?below,
    setReg_advance_three_frame s _ _⟩
  case equal => exact flags.trans (by rw [compareBits_of_eq h]; rfl)
  case above => exact flags.trans (by rw [compareBits_of_gt h]; rfl)
  case below => exact flags.trans (by rw [compareBits_of_lt h]; rfl)

/-- Settles O30: the answer of PUSH is the pushed state with the pc moved past two bytes. -/
theorem pushResult : Obligations.PushResult := fun s r hr hw hsp => by
  have hz := sp_toNat_ne_zero hsp
  exact ⟨_, exec_push s hr hz, pushAddr_of_ne_zero hz, State.pushed_read_self _ hw,
    State.pushed_read_of_ne_pushAddr _ hz, State.pushed_sp_toNat _ hz, sameRegsBut_pushed s _, rfl,
    ⟨rfl, rfl, rfl, rfl, rfl⟩, rfl, (s.pushed _).advance_two_pc_toNat⟩

/-- Settles O31: the destination is written after the stack pointer has moved, so it ends with the popped
byte also where it is register 7. -/
theorem popResult : Obligations.PopResult := fun s r hr hsp => by
  have hz := sp_toNat_ne_top hsp
  refine ⟨_, exec_pop s hr hz, State.reg_setReg_self s.popped ⟨r.toNat, hr⟩ _, fun h7 => ?sp,
    sameRegsBut_popped_setReg s _ _, fun _ => rfl, rfl, ⟨rfl, rfl, rfl, rfl, rfl⟩, rfl,
    State.advance_two_pc_toNat _⟩
  case sp =>
    have hne : Config.spIdx ≠ ⟨r.toNat, hr⟩ := fun e => h7 (congrArg Fin.val e).symm
    exact (congrArg BitVec.toNat (State.reg_setReg_ne s.popped _ hne)).trans (State.popped_sp_toNat hz)

/-- Settles O32: the answer of CALL is the state with the return address pushed, jumping to the register as
that state has it. -/
theorem callResult : Obligations.CallResult := fun s r hr hw hp hsp => by
  have hz := sp_toNat_ne_zero hsp
  refine ⟨_, exec_call s hr hp hz, pushAddr_of_ne_zero hz, ?pushedByte,
    State.pushed_read_of_ne_pushAddr _ hz, State.pushed_sp_toNat _ hz, sameRegsBut_pushed s _, rfl,
    ⟨rfl, rfl, rfl, rfl, rfl⟩, State.jumpTo_pc_toNat _ _, fun h7 => ?target⟩
  case pushedByte =>
    rw [State.jumpTo_mem, State.pushed_read_self _ hw, BitVec.toNat_ofNat, Nat.mod_eq_of_lt (by omega)]
  case target =>
    have hne : (⟨r.toNat, hr⟩ : RegIdx) ∉ [(7 : RegIdx)] := fun h =>
      h7 (congrArg Fin.val (List.mem_singleton.1 h))
    exact (State.jumpTo_pc_toNat _ _).trans (congrArg BitVec.toNat (sameRegsBut_pushed s _ _ hne))

/-- Settles O33: the answer of RETURN is the popped state, jumping to the byte at the old stack pointer. -/
theorem returnResult : Obligations.ReturnResult := fun s hsp => by
  have hz := sp_toNat_ne_top hsp
  exact ⟨_, exec_ret s hz, State.jumpTo_pc_toNat _ _, State.popped_sp_toNat hz, sameRegsBut_popped s,
    fun _ => rfl, rfl, rfl, rfl, rfl, rfl, rfl⟩

/-- Settles O35: bit 0 of register 6 selects between the jump and the move past two bytes. -/
theorem jumpIfEqualResult : Obligations.JumpIfEqualResult := fun s r hr => by
  have hflag := s.eqFlag_eq
  obtain h | h := Nat.mod_two_eq_zero_or_one s.x[6].toNat
  · refine ⟨s.advance 2, ?_, fun h1 => by omega, fun _ => ⟨rfl, s.advance_two_pc_toNat⟩,
      fun _ _ => rfl, fun _ => rfl, rfl, rfl, rfl, rfl, rfl, rfl⟩
    rw [exec_jumpIfEqual s hr, hflag, h]; rfl
  · refine ⟨s.jumpTo (s.reg ⟨r.toNat, hr⟩), ?_, fun _ => s.jumpTo_pc_toNat _, fun h0 => by omega,
      sameRegsBut_jumpTo s _, sameMem_jumpTo s _, rfl, sameControl_jumpTo s _⟩
    rw [exec_jumpIfEqual s hr, hflag, h]; rfl

/-- Settles O36: the same selection with the two arms exchanged. -/
theorem jumpIfNotEqualResult : Obligations.JumpIfNotEqualResult := fun s r hr => by
  have hflag := s.eqFlag_eq
  obtain h | h := Nat.mod_two_eq_zero_or_one s.x[6].toNat
  · refine ⟨s.jumpTo (s.reg ⟨r.toNat, hr⟩), ?_, fun _ => s.jumpTo_pc_toNat _, fun h1 => by omega,
      sameRegsBut_jumpTo s _, sameMem_jumpTo s _, rfl, sameControl_jumpTo s _⟩
    rw [exec_jumpIfNotEqual s hr, hflag, h]; rfl
  · refine ⟨s.advance 2, ?_, fun h0 => by omega, fun _ => ⟨rfl, s.advance_two_pc_toNat⟩,
      fun _ _ => rfl, fun _ => rfl, rfl, rfl, rfl, rfl, rfl, rfl⟩
    rw [exec_jumpIfNotEqual s hr, hflag, h]; rfl

/-! ### Where an instruction raises -/

/-- Settles O37: `exec_illegal` answers the raised state; the byte found is no register number. -/
theorem illegalRegisterOperandRaises : Obligations.IllegalRegisterOperandRaises := fun _ s _ h =>
  ⟨_, exec_illegal s h, raised_raise s _, eight_le_of_firstIllegal h⟩

/-- Settles O38: each clause is the error answer of one instruction. -/
theorem stackAndReturnAddressErrors : Obligations.StackAndReturnAddressErrors := fun s _ hr => by
  have zero (h : s.sp = 0) : s.sp.toNat = 0 := congrArg BitVec.toNat h
  have top (h : s.sp = 255) : s.sp.toNat = 255 := congrArg BitVec.toNat h
  exact ⟨fun h => ⟨_, exec_push_at_zero s hr (zero h), raised_raise s _⟩,
    fun h => ⟨_, exec_pop_at_top s hr (top h), raised_raise s _⟩,
    fun h => ⟨_, exec_ret_at_top s (top h), raised_raise s _⟩,
    fun h => ⟨_, exec_call_beyond s hr h, raised_raise s _⟩,
    fun hp h => ⟨_, exec_call_at_zero s hr hp (zero h), raised_raise s _⟩⟩

end Sys2Proof.Machine
end

section
/-! SUPPORT. What an executed instruction can change, said once for each part of the state: registers,
memory, output, and the run state with the error record. -/

namespace Sys2Proof.Machine

/-- A legal operand byte names one register. -/
@[simp] theorem regList_legal {b : Byte} (h : b.toNat < 8) : regList b = [⟨b.toNat, h⟩] := dif_pos h

theorem mem_regList {b : Byte} (h : b.toNat < 8) : (⟨b.toNat, h⟩ : RegIdx) ∈ regList b := by
  rw [regList_legal h]
  exact List.mem_singleton.2 rfl

theorem eq_of_mem_regList {b : Byte} (h : b.toNat < 8) {k : RegIdx} (hk : k ∈ regList b) :
    k = ⟨b.toNat, h⟩ := by
  rw [regList_legal h] at hk
  exact List.mem_singleton.1 hk

/-- An instruction changes no register that it does not write (10_state.md R25). -/
theorem ExecNext.frame_x {s t : State} {i : Instr} (h : ExecNext s i t) :
    sameRegsBut (regWrites i) s t := by
  have written (j : RegIdx) {r : Byte} (hr : r.toNat < 8) (hj : j ∉ regList r) :
      j ∉ [(⟨r.toNat, hr⟩ : RegIdx)] := by rwa [regList_legal hr] at hj
  cases h with
  | loadImmediate r imm h => exact fun j hj => sameRegsBut_setReg_advance s _ _ 3 j (written j h hj)
  | add ra rb ha hb => exact fun j hj => sameRegsBut_setReg_advance s _ _ 3 j (written j ha hj)
  | multiply ra rb ha hb => exact fun j hj => sameRegsBut_setReg_advance s _ _ 3 j (written j ha hj)
  | compare ra rb ha hb => exact sameRegsBut_setReg_advance s Config.flIdx _ 3
  | push r h hz => exact sameRegsBut_pushed s _
  | call r h hp hz => exact sameRegsBut_pushed s _
  | pop r h hz =>
    intro j hj
    rw [regWrites, regList_legal h] at hj
    exact sameRegsBut_popped_setReg s _ _ j hj
  | ret hz => exact sameRegsBut_popped s
  | jumpIfEqual r h => intro j _; split <;> rfl
  | jumpIfNotEqual r h => intro j _; split <;> rfl
  | _ => exact fun _ _ => rfl

/-- Memory is as before, or one byte was written below the stack pointer by PUSH or CALL. -/
theorem ExecNext.mem_cases {s t : State} {i : Instr} (h : ExecNext s i t) :
    t.mem = s.mem ∨ ((i.mnemonic = .push ∨ i.mnemonic = .call) ∧ s.sp.toNat ≠ 0 ∧
      ∃ v, t.mem = s.mem.write (s.sp.toNat - 1) v) := by
  cases h with
  | push r h hz => exact .inr ⟨.inl rfl, hz, _, rfl⟩
  | call r h hp hz => exact .inr ⟨.inr rfl, hz, _, rfl⟩
  | jumpIfEqual r h => exact .inl (by split <;> rfl)
  | jumpIfNotEqual r h => exact .inl (by split <;> rfl)
  | _ => exact .inl rfl

/-- The output is as before, or PRINT appended the byte of its register. -/
theorem ExecNext.out_cases {s t : State} {i : Instr} (h : ExecNext s i t) :
    t.out = s.out ∨ ∃ (r : Byte) (hr : r.toNat < 8),
      i = .print r ∧ t.out = s.out ++ [s.x[r.toNat]] := by
  cases h with
  | print r h => exact .inr ⟨r, h, rfl, rfl⟩
  | jumpIfEqual r h => exact .inl (by split <;> rfl)
  | jumpIfNotEqual r h => exact .inl (by split <;> rfl)
  | _ => exact .inl rfl

/-- An instruction raises, or it leaves the error record alone and changes the run state only by HALT. -/
theorem ExecNext.control_cases {s t : State} {i : Instr} (h : ExecNext s i t) :
    (∃ e, ExecError i s e ∧ t = s.raise e) ∨
    (sameRecord s t ∧ t.runState = if i.mnemonic = .halt then .halted else s.runState) := by
  cases h with
  | raise i e he => exact .inl ⟨e, he, rfl⟩
  | jumpIfEqual r h => exact .inr (by split <;> exact ⟨⟨rfl, rfl, rfl, rfl⟩, rfl⟩)
  | jumpIfNotEqual r h => exact .inr (by split <;> exact ⟨⟨rfl, rfl, rfl, rfl⟩, rfl⟩)
  | _ => exact .inr ⟨⟨rfl, rfl, rfl, rfl⟩, rfl⟩

/-- Only PUSH and CALL change memory. -/
theorem ExecNext.frame_mem {s t : State} {i : Instr} (h : ExecNext s i t)
    (hi : i.mnemonic ≠ .push ∧ i.mnemonic ≠ .call) : sameMem s t := by
  obtain hm | ⟨hp | hc, -⟩ := h.mem_cases
  · exact fun a => by rw [hm]
  · exact absurd hp hi.1
  · exact absurd hc hi.2

/-- PUSH and CALL change the one cell at `pushAddr` at most. -/
theorem ExecNext.frame_mem_pushAddr {s t : State} {i : Instr} (h : ExecNext s i t) (a : Nat)
    (ha : (a : Int) ≠ pushAddr s) : t.mem.read a = s.mem.read a := by
  obtain hm | ⟨-, hz, v, hm⟩ := h.mem_cases
  · rw [hm]
  · rw [hm]
    exact State.pushed_read_of_ne_pushAddr v hz a ha

/-- Only PRINT changes the output. -/
theorem ExecNext.frame_out {s t : State} {i : Instr} (h : ExecNext s i t) (hi : i.mnemonic ≠ .print) :
    t.out = s.out := by
  obtain ho | ⟨r, -, rfl, -⟩ := h.out_cases
  · exact ho
  · exact absurd rfl hi

/-- An instruction other than HALT raises or leaves the run state and the error record alone. -/
theorem ExecNext.frame_control {s t : State} {i : Instr} (h : ExecNext s i t) (hi : i.mnemonic ≠ .halt) :
    sameControl s t ∨ ∃ e, raised s t e := by
  obtain ⟨e, -, rfl⟩ | ⟨hrec, hrun⟩ := h.control_cases
  · exact .inr ⟨e, raised_raise s e⟩
  · exact .inl ⟨hrun.trans (if_neg hi), hrec⟩

end Sys2Proof.Machine
end

section
/-! PROOFS. Frames: what each group of instructions leaves alone on every path. -/

namespace Sys2Proof.Machine

/-- Settles O39: the registers are those of `regWrites`; none of the four is PUSH, CALL, PRINT or HALT. -/
theorem frameOfRegisterWriters : Obligations.FrameOfRegisterWriters := fun i s t hi h => by
  have hn := exec_cases h
  refine ⟨hn.frame_x, hn.frame_mem ?_, hn.frame_out ?_, hn.frame_control ?_⟩ <;>
    obtain hi | hi | hi | hi := hi <;> simp [hi]

/-- Settles O40: none of the five writes a register or memory; PRINT and HALT are the two exceptions. -/
theorem frameOfNonWriters : Obligations.FrameOfNonWriters := fun i s t hi h => by
  have hn := exec_cases h
  have hregs : regWrites i = [] := by
    cases i with
    | halt | print | jump | jumpIfEqual | jumpIfNotEqual => rfl
    | _ => simp [Instr.mnemonic] at hi
  refine ⟨hregs ▸ hn.frame_x, hn.frame_mem ?_, hn.frame_out, ?_⟩
  · obtain hi | hi | hi | hi | hi := hi <;> simp [hi]
  · obtain ⟨e, -, rfl⟩ | ⟨hrec, hrun⟩ := hn.control_cases
    · exact .inr ⟨e, raised_raise s e⟩
    · exact .inl ⟨hrec, fun hne => hrun.trans (if_neg hne)⟩

/-- Settles O41: both write the stack pointer only, and memory at `pushAddr` only. -/
theorem frameOfPushAndCall : Obligations.FrameOfPushAndCall := fun i s t hi h => by
  have hn := exec_cases h
  have hregs : regWrites i = [7] := by
    cases i with
    | push | call => rfl
    | _ => simp [Instr.mnemonic] at hi
  refine ⟨hregs ▸ hn.frame_x, hn.frame_mem_pushAddr, hn.frame_out ?_, hn.frame_control ?_⟩ <;>
    obtain hi | hi := hi <;> simp [hi]

/-- Settles O42: the registers are those of `regWrites`; neither is PUSH, CALL, PRINT or HALT. -/
theorem frameOfPopAndReturn : Obligations.FrameOfPopAndReturn := fun i s t hi h => by
  have hn := exec_cases h
  refine ⟨hn.frame_x, hn.frame_mem ?_, hn.frame_out ?_, hn.frame_control ?_⟩ <;>
    obtain hi | hi := hi <;> simp [hi]

/-! ### What an instruction does on other registers -/

/-- The state with other registers. -/
def State.withX (s : State) (y : Vector Byte 8) : State := { s with x := y }

theorem State.withX_eqFlag {s : State} {y : Vector Byte 8}
    (h : (s.withX y).reg Config.flIdx = s.reg Config.flIdx) : (s.withX y).eqFlag = s.eqFlag :=
  congrArg (·.getLsbD Config.flEq) h

theorem State.withX_pushed {s : State} {y : Vector Byte 8} (h : (s.withX y).sp = s.sp) (v : Byte) :
    (s.withX y).pushed v = (s.pushed v).withX (y.set Config.spIdx (s.sp - 1)) := by
  rw [State.pushed, h]
  rfl

theorem State.withX_popped {s : State} {y : Vector Byte 8} (h : (s.withX y).sp = s.sp) :
    (s.withX y).popped = s.popped.withX (y.set Config.spIdx (s.sp + 1)) := by
  rw [State.popped, h]
  rfl

/-- Writing a register to both gives agreement there, and keeps it elsewhere. -/
theorem set_agrees {s : State} {y : Vector Byte 8} {i k : RegIdx} (v : Byte)
    (h : k ≠ i → y[k] = s.x[k]) : (y.set i v)[k] = (s.setReg i v).x[k] := by
  by_cases hk : k = i
  · subst hk
    exact ((s.withX y).reg_setReg_self k v).trans (s.reg_setReg_self k v).symm
  · exact ((s.withX y).reg_setReg_ne v hk).trans ((h hk).trans (s.reg_setReg_ne v hk).symm)

/-- An instruction on other registers `y` that agree on those it reads: its outcome is the same but for the
registers, and the same in the registers it writes (10_state.md R25). -/
theorem exec_withX {i : Instr} {s t : State} {y : Vector Byte 8}
    (hy : ∀ k ∈ regReads s i, y[k] = s.x[k]) (h : exec i s = .next t) (hf : t.runState ≠ .faulted) :
    ∃ z : Vector Byte 8, exec i (s.withX y) = .next (t.withX z) ∧
      ∀ k ∈ regWrites i, z[k] = t.x[k] := by
  have reads (k : RegIdx) (hk : k ∈ regReads s i) : (s.withX y).reg k = s.reg k := hy k hk
  have written {u : State} {w : Vector Byte 8} {j k : RegIdx} (v : Byte) (hk : k = j) :
      (w.set j v)[k] = (u.setReg j v).x[k] := set_agrees v fun hne => absurd hk hne
  cases exec_cases h with
  | raise i e he => exact absurd rfl hf
  | halt => exact ⟨y, rfl, nofun⟩
  | loadImmediate r imm hr =>
    exact ⟨y.set r.toNat imm, exec_loadImmediate _ imm hr, fun k hk => written _ (eq_of_mem_regList hr hk)⟩
  | print r hr =>
    refine ⟨y, ?_, nofun⟩
    rw [exec_print _ hr, reads _ (mem_regList hr)]
    rfl
  | add ra rb ha hb =>
    have h1 := reads ⟨ra.toNat, ha⟩ (List.mem_append_left _ (mem_regList ha))
    have h2 := reads ⟨rb.toNat, hb⟩ (List.mem_append_right _ (mem_regList hb))
    refine ⟨y.set ra.toNat (s.reg ⟨ra.toNat, ha⟩ + s.reg ⟨rb.toNat, hb⟩), ?_,
      fun k hk => written _ (eq_of_mem_regList ha hk)⟩
    rw [exec_add _ ha hb, h1, h2]
    rfl
  | multiply ra rb ha hb =>
    have h1 := reads ⟨ra.toNat, ha⟩ (List.mem_append_left _ (mem_regList ha))
    have h2 := reads ⟨rb.toNat, hb⟩ (List.mem_append_right _ (mem_regList hb))
    refine ⟨y.set ra.toNat (s.reg ⟨ra.toNat, ha⟩ * s.reg ⟨rb.toNat, hb⟩), ?_,
      fun k hk => written _ (eq_of_mem_regList ha hk)⟩
    rw [exec_multiply _ ha hb, h1, h2]
    rfl
  | compare ra rb ha hb =>
    have h1 := reads ⟨ra.toNat, ha⟩ (List.mem_append_left _ (mem_regList ha))
    have h2 := reads ⟨rb.toNat, hb⟩ (List.mem_append_right _ (mem_regList hb))
    refine ⟨y.set Config.flIdx
      (flagsByte (compareBits (s.reg ⟨ra.toNat, ha⟩) (s.reg ⟨rb.toNat, hb⟩))), ?_,
      fun k hk => written _ (List.mem_singleton.1 hk)⟩
    rw [exec_compare _ ha hb, h1, h2]
    rfl
  | push r hr hz =>
    have h7 : (s.withX y).sp = s.sp := reads Config.spIdx List.mem_cons_self
    have h1 := reads ⟨r.toNat, hr⟩ (List.mem_cons_of_mem _ (mem_regList hr))
    refine ⟨y.set Config.spIdx (s.sp - 1), ?_, fun k hk => written _ (List.mem_singleton.1 hk)⟩
    rw [exec_push _ hr (by rwa [h7]), State.withX_pushed h7, h1]
    rfl
  | pop r hr hz =>
    have h7 : (s.withX y).sp = s.sp := reads Config.spIdx List.mem_cons_self
    refine ⟨(y.set Config.spIdx (s.sp + 1)).set r.toNat (s.mem.read s.sp.toNat), ?_, fun k hk => ?_⟩
    · rw [exec_pop _ hr (by rwa [h7]), State.withX_popped h7, h7]
      rfl
    · refine set_agrees (s := s.popped) (i := ⟨r.toNat, hr⟩) _ fun hne => written _ ?_
      exact (List.mem_cons.1 hk).resolve_right fun hk => hne (eq_of_mem_regList hr hk)
  | call r hr hp hz =>
    have h7 : (s.withX y).sp = s.sp := reads Config.spIdx List.mem_cons_self
    have h1 := reads ⟨r.toNat, hr⟩ (List.mem_cons_of_mem _ (mem_regList hr))
    refine ⟨y.set Config.spIdx (s.sp - 1), ?_, fun k hk => written _ (List.mem_singleton.1 hk)⟩
    rw [exec_call (s.withX y) hr hp (by rwa [h7]), State.withX_pushed h7]
    exact congrArg (fun v => Host.Outcome.next (((s.pushed _).jumpTo v).withX _)) (set_agrees _ fun _ => h1)
  | ret hz =>
    have h7 : (s.withX y).sp = s.sp := reads Config.spIdx List.mem_cons_self
    refine ⟨y.set Config.spIdx (s.sp + 1), ?_, fun k hk => written _ (List.mem_singleton.1 hk)⟩
    rw [exec_ret _ (by rwa [h7]), State.withX_popped h7, h7]
    rfl
  | jump r hr =>
    refine ⟨y, ?_, nofun⟩
    rw [exec_jump _ hr, reads _ (mem_regList hr)]
    rfl
  | jumpIfEqual r hr =>
    refine ⟨y, ?_, nofun⟩
    rw [exec_jumpIfEqual _ hr, State.withX_eqFlag (reads Config.flIdx List.mem_cons_self)]
    cases hflag : s.eqFlag with
    | false => rfl
    | true =>
      have h1 := reads ⟨r.toNat, hr⟩ (List.mem_cons_of_mem _ (by rw [if_pos hflag]; exact mem_regList hr))
      rw [h1]
      rfl
  | jumpIfNotEqual r hr =>
    refine ⟨y, ?_, nofun⟩
    rw [exec_jumpIfNotEqual _ hr, State.withX_eqFlag (reads Config.flIdx List.mem_cons_self)]
    cases hflag : s.eqFlag with
    | false =>
      have h1 := reads ⟨r.toNat, hr⟩
        (List.mem_cons_of_mem _ (by rw [if_neg (by rw [hflag]; nofun)]; exact mem_regList hr))
      rw [h1]
      rfl
    | true => rfl

/-- Settles O43: `exec_withX` gives the outcome, and the frame of the second run the registers that are not
written. -/
theorem outcomeDependsOnReadRegistersOnly : Obligations.OutcomeDependsOnReadRegistersOnly := by
  rintro i s _ t y - rfl hy h hf
  obtain ⟨z, hz, hw⟩ := exec_withX hy h hf
  exact ⟨_, hz, rfl, rfl, rfl, rfl, ⟨rfl, rfl, rfl, rfl⟩, hw, (exec_cases hz).frame_x⟩

end Sys2Proof.Machine
end

section
/-! SUPPORT. Canonical memories, several pushes and pops, and the flag after a COMPARE. -/

namespace Sys2Proof.Machine

/-! ### Canonical memories -/

/-- A canonical memory that reads the unlisted byte everywhere lists nothing. -/
theorem Memory.eq_nil_of_read {m : Memory} {lo : Nat} (h : Memory.wfAbove lo m = true)
    (hr : ∀ a, m.read a = unlistedByte) : m = [] := by
  cases m with
  | nil => rfl
  | cons c rest =>
    obtain ⟨k, w⟩ := c
    obtain ⟨-, hw, -⟩ := (Memory.wfAbove_cons lo k w rest).1 h
    exact absurd (by simpa [Memory.read_cons] using hr k) hw

/-- The first address listed is the least that does not read as the unlisted byte. -/
theorem Memory.head_le_of_read {k k' lo : Nat} {w w' : Byte} {rest rest' : Memory}
    (h : Memory.wfAbove lo ((k, w) :: rest) = true) (h' : Memory.wfAbove lo ((k', w') :: rest') = true)
    (hr : Memory.read ((k, w) :: rest) k' = Memory.read ((k', w') :: rest') k') : k ≤ k' := by
  obtain ⟨-, hlisted⟩ := (Memory.wfAbove_cons lo k w rest).1 h
  obtain ⟨-, hw', -⟩ := (Memory.wfAbove_cons lo k' w' rest').1 h'
  refine Classical.byContradiction fun hlt => ?_
  have hbelow := Memory.read_below ((Memory.wfAbove_cons k k w rest).2 ⟨Nat.le_refl k, hlisted⟩)
    (Nat.not_le.1 hlt)
  rw [hbelow, Memory.read_cons k', if_pos rfl] at hr
  exact hw' hr.symm

/-- Canonical memories that read the same everywhere list the same cells. -/
theorem Memory.eq_of_read : ∀ {m₁ m₂ : Memory} {lo : Nat}, Memory.wfAbove lo m₁ = true →
    Memory.wfAbove lo m₂ = true → (∀ a, m₁.read a = m₂.read a) → m₁ = m₂
  | [], _, _, _, h₂, hr => (Memory.eq_nil_of_read h₂ fun a => (hr a).symm).symm
  | _ :: _, [], _, h₁, _, hr => Memory.eq_nil_of_read h₁ hr
  | (k, w) :: rest, (k', w') :: rest', lo, h₁, h₂, hr => by
    obtain ⟨-, -, hrest⟩ := (Memory.wfAbove_cons lo k w rest).1 h₁
    obtain ⟨-, -, hrest'⟩ := (Memory.wfAbove_cons lo k' w' rest').1 h₂
    obtain rfl : k = k' := Nat.le_antisymm (Memory.head_le_of_read h₁ h₂ (hr k'))
      (Memory.head_le_of_read h₂ h₁ (hr k).symm)
    obtain rfl : w = w' := by simpa [Memory.read_cons] using hr k
    have hrests (a : Nat) : Memory.read rest a = Memory.read rest' a := by
      by_cases ha : a = k
      · rw [Memory.read_below hrest (by omega), Memory.read_below hrest' (by omega)]
      · simpa [Memory.read_cons, ha] using hr a
    rw [Memory.eq_of_read hrest hrest' hrests]

/-! ### Several pushes and pops -/

theorem push_eq_pushed {s : State} (v : Byte) (h : s.sp.toNat ≠ 0) : push s v = .ok (s.pushed v) :=
  push_above_zero v h

theorem pop_eq_popped {s : State} (h : s.sp.toNat ≠ 255) :
    pop s = .ok (s.mem.read s.sp.toNat, s.popped) := pop_below_top h

theorem pushAll_cons {s : State} (v : Byte) (vs : List Byte) (h : s.sp.toNat ≠ 0) :
    pushAll s (v :: vs) = pushAll (s.pushed v) vs := by
  rw [pushAll, push_eq_pushed v h]

theorem popAll_succ {n : Nat} {s t u : State} {v : Byte} {vs : List Byte} (h : pop s = .ok (v, t))
    (hn : popAll t n = .ok (vs, u)) : popAll s (n + 1) = .ok (v :: vs, u) := by
  simp [popAll, h, hn]

/-- One pop more, at the end. -/
theorem popAll_succ_of_pop : ∀ {n : Nat} {s u w : State} {vs : List Byte} {v : Byte},
    popAll s n = .ok (vs, u) → pop u = .ok (v, w) → popAll s (n + 1) = .ok (vs ++ [v], w)
  | 0, s, u, w, vs, v, h, hv => by
    cases h
    exact popAll_succ hv rfl
  | n + 1, s, u, w, vs, v, h, hv => by
    rw [popAll] at h
    cases hp : pop s with
    | error e => rw [hp] at h; cases h
    | ok p =>
      obtain ⟨v₀, s₁⟩ := p
      rw [hp] at h
      dsimp only at h
      cases hq : popAll s₁ n with
      | error e => rw [hq] at h; cases h
      | ok q =>
        rw [hq] at h
        cases h
        exact popAll_succ hp (popAll_succ_of_pop hq hv)

/-- More pushes than the stack pointer allows end in AddressError(-1) (43_stack.md R153). -/
theorem pushAll_beyond_zero : ∀ (vs : List Byte) {s : State}, s.sp.toNat < vs.length →
    pushAll s vs = .error (.address (-1))
  | [], _, h => absurd h (Nat.not_lt_zero _)
  | v :: vs, s, h => by
    by_cases hz : s.sp.toNat = 0
    · rw [pushAll, push_at_zero v hz]
    · rw [pushAll_cons v vs hz]
      refine pushAll_beyond_zero vs ?_
      rw [State.pushed_sp_toNat v hz]
      rw [List.length_cons] at h
      omega

/-- A pop after the stack pointer of a push undoes the push on the registers. -/
theorem popped_x_of_pushed {s u : State} {v : Byte} (hx : u.x = (s.pushed v).x) : u.popped.x = s.x := by
  have h : u.sp = s.sp - 1 := (congrArg (·[Config.spIdx]) hx).trans (State.pushed_sp s v)
  rw [State.popped_x, h, BitVec.sub_add_cancel, hx, State.pushed_x, Vector.set_set]
  exact Vector.set_getElem_self _

/-- What pushing bytes leaves: where the stack pointer and the bytes stand, and that popping them gives them
back in reverse order (43_stack.md R154). -/
theorem pushAll_then_popAll : ∀ (vs : List Byte) {s : State}, s.mem.wf = true →
    vs.length ≤ s.sp.toNat → ∃ t u, pushAll s vs = .ok t ∧ t.sp.toNat = s.sp.toNat - vs.length ∧
      popAll t vs.length = .ok (vs.reverse, u) ∧ u.x = s.x ∧ u.mem = t.mem ∧
      (∀ a : Nat, a < s.sp.toNat - vs.length ∨ s.sp.toNat ≤ a → t.mem.read a = s.mem.read a) ∧
      (∀ (k : Nat) (v : Byte), vs[k]? = some v → t.mem.read (s.sp.toNat - 1 - k) = v)
  | [], s, _, _ => ⟨s, s, rfl, rfl, rfl, rfl, rfl, fun _ _ => rfl, by simp⟩
  | v :: vs, s, hw, hl => by
    rw [List.length_cons] at hl
    have hlt : s.sp.toNat < 256 := s.sp.isLt
    have hz : s.sp.toNat ≠ 0 := by omega
    have hsp := State.pushed_sp_toNat v hz
    obtain ⟨t, u, ht, htsp, hu, hux, humem, hframe, hcells⟩ :=
      pushAll_then_popAll vs (s := s.pushed v) (Memory.wf_write _ v hw) (by omega)
    rw [hsp] at htsp hframe hcells
    have husp : u.sp.toNat = s.sp.toNat - 1 := by
      rw [← hsp]; exact congrArg (fun x : Vector Byte 8 => x[Config.spIdx].toNat) hux
    have hbyte : u.mem.read u.sp.toNat = v := by
      rw [humem, husp, hframe _ (.inr (Nat.le_refl _)), State.pushed_read_self v hw]
    have hpop : pop u = .ok (v, u.popped) := by rw [pop_eq_popped (by omega), hbyte]
    refine ⟨t, u.popped, (pushAll_cons v vs hz).trans ht, by rw [List.length_cons]; omega, ?_,
      popped_x_of_pushed hux, humem, fun a ha => ?_, fun k b hb => ?_⟩
    · rw [List.length_cons, List.reverse_cons, popAll_succ_of_pop hu hpop]
    · rw [List.length_cons] at ha
      rw [hframe a (by omega), State.pushed_read_ne v (by omega)]
    · cases k with
      | zero =>
        obtain rfl : v = b := by simpa using hb
        rw [Nat.sub_zero, hframe _ (.inr (Nat.le_refl _)), State.pushed_read_self v hw]
      | succ k =>
        rw [← hcells k b (by simpa using hb)]
        congr 1
        omega

/-! ### The flag after a COMPARE -/

/-- EQ after the flags byte of a comparison is written to register 6 (42_alu.md R134, R140). -/
theorem eqFlag_setReg_flagsByte (s : State) (a b : Byte) :
    ((s.setReg Config.flIdx (flagsByte (compareBits a b))).advance 3).eqFlag = decide (a = b) := by
  refine Eq.trans ?_ (flagsByte_compareBits_eq a b)
  exact congrArg (·.getLsbD Config.flEq) (s.reg_setReg_self Config.flIdx _)

end Sys2Proof.Machine
end

section
/-! PROOFS. Laws of the blocks: the register file, memory, the ALU, the stack (spec/10_state.md R22,
20_memory.md R50, 42_alu.md, 43_stack.md R154), and what an instruction finds after another. -/

namespace Sys2Proof.Machine

/-- Settles O44: a legal byte names its register, an illegal one is reported. -/
theorem registerFileContract : Obligations.RegisterFileContract := fun s b v => by
  constructor
  · intro hb
    refine ⟨s.setReg ⟨b.toNat, hb⟩ (BitVec.ofNat 8 v), ?_, ?_, fun k hk => ?_, rfl, rfl⟩
    · rw [regWrite, regIndex_legal hb]
    · rw [regRead, regIndex_legal hb]
      dsimp only
      rw [State.reg_setReg_self]
      exact congrArg Except.ok (BitVec.eq_of_toNat_eq (by simp))
    · exact s.reg_setReg_ne _ fun e => hk (congrArg Fin.val e)
  · intro hb
    rw [regRead, regWrite, regIndex_illegal hb]
    exact ⟨rfl, rfl⟩

/-- Settles O45: inside the 256 cells the laws of `Memory.read` and `Memory.write`, outside the bounds
check. -/
theorem memoryContract : Obligations.MemoryContract := fun s a v hw => by
  constructor
  · intro h0 h256
    obtain ⟨n, rfl⟩ := Int.eq_ofNat_of_zero_le h0
    have hn : n < 256 := by omega
    refine ⟨_, memWrite_inside s v hn, ?_, fun b hb0 hb256 hne => ?_, rfl, Memory.wf_write n v hw⟩
    · rw [memRead_inside _ hn, Memory.read_write_same n v hw]
    · obtain ⟨k, rfl⟩ := Int.eq_ofNat_of_zero_le hb0
      rw [memRead_inside _ (by omega), memRead_inside s (by omega),
        Memory.read_write_ne s.mem v (by omega)]
  · exact fun h => ⟨memRead_outside s h, memWrite_outside s v h⟩

/-- Settles O46: the least address listed is the least that does not read as the unlisted byte, and so on
along the lists. -/
theorem canonicalMemoriesAreEqualData : Obligations.CanonicalMemoriesAreEqualData :=
  fun _ _ h₁ h₂ hr => Memory.eq_of_read h₁ h₂ hr

/-- Settles O48: the four functions by selector; the comparison by the order of the two numbers. -/
theorem aluSubtractCompareAndUnsupported : Obligations.AluSubtractCompareAndUnsupported := fun a b => by
  refine ⟨⟨_, alu_sub a b, rfl, ?difference⟩, ⟨_, alu_cmp a b, rfl, ?bits⟩, fun sel => ?selectors⟩
  case difference =>
    have ha : a.toNat < 256 := a.isLt
    have hb : b.toNat < 256 := b.isLt
    rw [BitVec.toNat_sub]
    omega
  case bits =>
    obtain h | h | h := Nat.lt_trichotomy a.toNat b.toNat
    · have hne : a ≠ b := by rintro rfl; omega
      rw [compareBits_of_lt h, decide_eq_true h, decide_eq_false (by omega), decide_eq_false hne]; rfl
    · have heq : a = b := BitVec.eq_of_toNat_eq h
      rw [compareBits_of_eq h, decide_eq_false (by omega), decide_eq_false (by omega),
        decide_eq_true heq]; rfl
    · have hne : a ≠ b := by rintro rfl; omega
      rw [compareBits_of_gt h, decide_eq_false (by omega), decide_eq_true h, decide_eq_false hne]; rfl
  case selectors =>
    refine ⟨fun h => ?_, fun h => ?_⟩
    · obtain h0 | h1 | h2 | h3 : sel.toNat = 0 ∨ sel.toNat = 1 ∨ sel.toNat = 2 ∨ sel.toNat = 3 := by omega
      · exact ⟨_, (BitVec.eq_of_toNat_eq h0 : sel = aluAdd) ▸ alu_add a b⟩
      · exact ⟨_, (BitVec.eq_of_toNat_eq h1 : sel = aluSub) ▸ alu_sub a b⟩
      · exact ⟨_, (BitVec.eq_of_toNat_eq h2 : sel = aluMul) ▸ alu_mul a b⟩
      · exact ⟨_, (BitVec.eq_of_toNat_eq h3 : sel = aluCmp) ▸ alu_cmp a b⟩
    · have hne (f : BitVec 3) (hf : f.toNat < 4) : sel ≠ f := by
        rintro rfl
        omega
      rw [alu, if_neg (hne aluAdd (by decide)), if_neg (hne aluSub (by decide)),
        if_neg (hne aluMul (by decide)), if_neg (hne aluCmp (by decide))]

/-- Settles O49, by induction on the bytes pushed: the first pushed is the last popped. -/
theorem stackIsLastInFirstOut : Obligations.StackIsLastInFirstOut :=
  ⟨fun _ vs hw hl => pushAll_then_popAll vs hw hl, fun vs hl => pushAll_beyond_zero vs hl⟩

/-- Settles O50: RETURN pops the cell that holds the return address and moves SP back up. -/
theorem returnResumesAfterCall : Obligations.ReturnResumesAfterCall := by
  intro s t u r hr hw _ h hf hsp hbyte
  cases exec_cases h with
  | raise i e he => exact absurd rfl hf
  | call r hr hp hz =>
    have hlt : s.sp.toNat < 256 := s.sp.isLt
    have husp : u.sp.toNat = s.sp.toNat - 1 := by rw [hsp]; exact State.pushed_sp_toNat _ hz
    have hpushed : u.mem.read u.sp.toNat = BitVec.ofNat 8 (s.pc.toNat + 2) := by
      rw [hbyte, ← hsp, husp]
      exact State.pushed_read_self _ hw
    refine ⟨_, exec_ret u (by omega), ?_, ?_⟩
    · rw [State.jumpTo_pc_toNat, hpushed, BitVec.toNat_ofNat, Nat.mod_eq_of_lt (by omega)]
    · apply BitVec.eq_of_toNat_eq
      exact (State.popped_sp_toNat (by omega)).trans (by omega)

/-- Settles O51: EQ in the compared state is the equality of the two values, and it selects the arm of each
jump. -/
theorem compareThenConditionalJump : Obligations.CompareThenConditionalJump := by
  intro s t ra rb r ha hb hr h
  rw [exec_compare s ha hb] at h
  cases h
  refine ⟨_, _, exec_jumpIfEqual _ hr, exec_jumpIfNotEqual _ hr, ?_, ?_⟩ <;>
    rw [eqFlag_setReg_flagsByte] <;> by_cases heq : s.x[ra.toNat] = s.x[rb.toNat] <;> simp [heq]

end Sys2Proof.Machine
end

section
/-! SUPPORT. One step of a running machine in four cases, by what fetch and decode find (spec/40_step_cycle.md
R102 to R108), and what a decoded instruction says of the bytes at the program counter. -/

namespace Sys2Proof.Machine

/-! ### The bytes of a fetch -/

theorem fetchBytes_beyond {s : State} (h : 255 < s.pc.toNat) : fetchBytes s = [] := by
  rw [fetchBytes_eq, if_neg (by omega), if_neg (by omega), if_neg (by omega)]

theorem fetchBytes_of_two_follow {s : State} (h : s.pc.toNat ≤ 253) :
    fetchBytes s =
      [s.mem.read s.pc.toNat, s.mem.read (s.pc.toNat + 1), s.mem.read (s.pc.toNat + 2)] := by
  rw [fetchBytes_eq, if_pos (by omega)]

theorem fetchBytes_of_one_follows {s : State} (h : s.pc.toNat = 254) :
    fetchBytes s = [s.mem.read s.pc.toNat, s.mem.read (s.pc.toNat + 1)] := by
  rw [fetchBytes_eq, if_neg (by omega), if_pos h, h]

theorem fetchBytes_of_none_follows {s : State} (h : s.pc.toNat = 255) :
    fetchBytes s = [s.mem.read s.pc.toNat] := by
  rw [fetchBytes_eq, if_neg (by omega), if_neg (by omega), if_pos h, h]

/-- Byte `k` of a fetch is memory's byte at `pc + k`, where there is one. -/
theorem fetchBytes_getElem? (s : State) (k : Nat) :
    (fetchBytes s)[k]? =
      if k < 3 ∧ s.pc.toNat + k < 256 then some (s.mem.read (s.pc.toNat + k)) else none := by
  obtain h | h | h | h : s.pc.toNat ≤ 253 ∨ s.pc.toNat = 254 ∨ s.pc.toNat = 255 ∨ 255 < s.pc.toNat := by
    omega
  · rw [fetchBytes_of_two_follow h]
    match k with
    | 0 => exact (if_pos (by omega)).symm
    | 1 => exact (if_pos (by omega)).symm
    | 2 => exact (if_pos (by omega)).symm
    | k + 3 => exact (if_neg (by omega)).symm
  · rw [fetchBytes_of_one_follows h]
    match k with
    | 0 => exact (if_pos (by omega)).symm
    | 1 => exact (if_pos (by omega)).symm
    | k + 2 => exact (if_neg (by omega)).symm
  · rw [fetchBytes_of_none_follows h]
    match k with
    | 0 => exact (if_pos (by omega)).symm
    | k + 1 => exact (if_neg (by omega)).symm
  · rw [fetchBytes_beyond h]
    exact (if_neg (by omega)).symm

/-- Where the opcode byte exists, it heads the fetch, and as many bytes follow as memory has, two at most. -/
theorem fetchBytes_eq_cons {s : State} (h : s.pc.toNat ≤ 255) :
    ∃ tail, fetchBytes s = s.mem.read s.pc.toNat :: tail ∧ tail.length = min 2 (255 - s.pc.toNat) := by
  obtain h | h | h : s.pc.toNat ≤ 253 ∨ s.pc.toNat = 254 ∨ s.pc.toNat = 255 := by omega
  · exact ⟨_, fetchBytes_of_two_follow h, (Nat.min_eq_left (by omega : 2 ≤ 255 - s.pc.toNat)).symm⟩
  · exact ⟨_, fetchBytes_of_one_follows h, by rw [h]; rfl⟩
  · exact ⟨_, fetchBytes_of_none_follows h, by rw [h]; rfl⟩

/-! ### The register operands by operation -/

/-- The decoder's control table names the register operands (40_step_cycle.md R105). -/
theorem regOperands_ofOperands (n : Mnemonic) (a b : Byte) :
    (Instr.ofOperands n a b).regOperands =
      (if (controlOf n).op1IsReg then [a] else []) ++ (if (controlOf n).op2IsReg then [b] else []) := by
  cases n <;> rfl

/-- The two ways of checking the register operands find the same byte (49_core_blocks.md R210). -/
theorem regError_eq_firstIllegal (n : Mnemonic) (a b : Byte) :
    regError n a b = (Instr.ofOperands n a b).firstIllegal.map CoreError.register := by
  have illegal (c : Byte) : (!legalReg c) = decide (7 < c.toNat) := by
    rw [Bool.eq_iff_iff]
    simp [legalReg]
    omega
  rw [Instr.firstIllegal, regOperands_ofOperands, regError]
  cases (controlOf n).op1IsReg <;> cases (controlOf n).op2IsReg <;>
    by_cases ha : 7 < a.toNat <;> by_cases hb : 7 < b.toNat <;> simp [illegal, ha, hb]

theorem exec_of_regError {n : Mnemonic} {a b : Byte} {e : CoreError} (s : State)
    (h : regError n a b = some e) : exec (Instr.ofOperands n a b) s = .next (s.raise e) := by
  rw [regError_eq_firstIllegal, Option.map_eq_some_iff] at h
  obtain ⟨c, hc, rfl⟩ := h
  exact exec_illegal s hc

/-! ### A step, case by case -/

theorem stepWith_of_decode_error {m : OpcodeMap} {s : State} {d : DecodeError}
    (hr : s.runState = .running) (h : decodeWith m (fetchBytes s) = .error d) :
    stepWith m s = .next (s.raise (fetchError s.pc.toNat d)) := by
  simp [stepWith, hr, h]

theorem stepWith_of_decode_ok {m : OpcodeMap} {s : State} {i : Instr} {rest : List Byte}
    (hr : s.runState = .running) (h : decodeWith m (fetchBytes s) = .ok (i, rest)) :
    stepWith m s = exec i s := by
  simp [stepWith, hr, h]

/-- No opcode byte. -/
theorem stepWith_beyond {m : OpcodeMap} {s : State} (hr : s.runState = .running)
    (h : 255 < s.pc.toNat) : stepWith m s = .next (s.raise (.address s.pc.toNat)) :=
  stepWith_of_decode_error (d := .missingByte 0) hr (by rw [fetchBytes_beyond h]; rfl)

/-- An opcode byte of no operation. -/
theorem stepWith_unknown {m : OpcodeMap} {s : State} (hr : s.runState = .running)
    (h : s.pc.toNat ≤ 255) (hl : lookup m (s.mem.read s.pc.toNat) = none) :
    stepWith m s = .next (s.raise (.unknownOpcode (s.mem.read s.pc.toNat))) := by
  obtain ⟨tail, hf, -⟩ := fetchBytes_eq_cons h
  exact stepWith_of_decode_error hr (by rw [hf, decodeWith_unknown hl])

/-- An operand byte that has no address: the first one missing is at 256. -/
theorem stepWith_missing {m : OpcodeMap} {s : State} {n : Mnemonic} (hr : s.runState = .running)
    (h : s.pc.toNat ≤ 255) (hl : lookup m (s.mem.read s.pc.toNat) = some n)
    (ha : 255 < s.pc.toNat + arity n) : stepWith m s = .next (s.raise (.address 256)) := by
  obtain ⟨tail, hf, hlen⟩ := fetchBytes_eq_cons h
  have h2 := arity_le_two n
  have hd : decodeWith m (fetchBytes s) = .error (.missingByte (tail.length + 1)) := by
    rw [hf, decodeWith_missing hl (by omega)]
  have h256 : (s.pc.toNat : Int) + ((tail.length + 1 : Nat) : Int) = 256 := by omega
  rw [stepWith_of_decode_error hr hd, fetchError, h256]

/-- All operand bytes are there: the step is the execution of the operation on them, which checks the
register operands before all else (40_step_cycle.md R106). -/
theorem stepWith_exec {m : OpcodeMap} {s : State} {n : Mnemonic} (hr : s.runState = .running)
    (hl : lookup m (s.mem.read s.pc.toNat) = some n) (ha : s.pc.toNat + arity n ≤ 255) :
    stepWith m s =
      exec (.ofOperands n (s.mem.read (s.pc.toNat + 1)) (s.mem.read (s.pc.toNat + 2))) s := by
  obtain ⟨tail, hf, hlen⟩ := fetchBytes_eq_cons (s := s) (by omega)
  have h2 := arity_le_two n
  have byte (k : Nat) (hk : k < arity n) : tail.getD k 0 = s.mem.read (s.pc.toNat + (k + 1)) := by
    have h := fetchBytes_getElem? s (k + 1)
    rw [hf, List.getElem?_cons_succ, if_pos (by omega)] at h
    rw [List.getD_eq_getElem?_getD, h, Option.getD_some]
  have ht := takeOperands_enough (n := n) (bs := tail) (by omega)
  rw [Instr.ofOperands_congr (fun h => byte 0 h) (fun h => byte 1 (by omega))] at ht
  generalize Instr.ofOperands n (s.mem.read (s.pc.toNat + 1)) (s.mem.read (s.pc.toNat + 2)) = i at ht ⊢
  cases hi : i.firstIllegal with
  | none =>
    exact stepWith_of_decode_ok hr (by rw [hf, decodeWith_legal hl ht (Instr.firstIllegal_eq_none.1 hi)])
  | some b =>
    rw [exec_illegal s hi]
    exact stepWith_of_decode_error hr (by rw [hf, decodeWith_illegal hl ht hi])

end Sys2Proof.Machine
end

section
/-! SUPPORT. What a step can answer, and what each answer says of the invariant. -/

namespace Sys2Proof.Machine

/-! ### A step inverted -/

/-- Every step raises the decoder's error or is an answer of the decoded instruction. -/
theorem stepWith_next_cases {m : OpcodeMap} {s t : State} (h : stepWith m s = .next t) :
    (∃ d, decodeWith m (fetchBytes s) = .error d ∧ t = s.raise (fetchError s.pc.toNat d)) ∨
    (∃ i rest, decodeWith m (fetchBytes s) = .ok (i, rest) ∧ ExecNext s i t) := by
  obtain ⟨d, hd, hs⟩ | ⟨i, rest, hd, hs⟩ := stepWith_running (m := m) (stepWith_next_running h)
  · rw [hs] at h
    cases h
    exact .inl ⟨d, hd, rfl⟩
  · exact .inr ⟨i, rest, hd, exec_cases (hs ▸ h)⟩

/-- Every step raises or keeps the error record, and HALT alone changes the run state then. -/
theorem stepWith_control_cases {m : OpcodeMap} {s t : State} (h : stepWith m s = .next t) :
    (∃ e, t = s.raise e) ∨ (∃ i rest, decodeWith m (fetchBytes s) = .ok (i, rest) ∧ sameRecord s t ∧
      t.runState = if i.mnemonic = .halt then .halted else .running) := by
  obtain ⟨d, -, rfl⟩ | ⟨i, rest, hd, hn⟩ := stepWith_next_cases h
  · exact .inl ⟨_, rfl⟩
  · obtain ⟨e, -, rfl⟩ | ⟨hrec, hrun⟩ := hn.control_cases
    · exact .inl ⟨e, rfl⟩
    · exact .inr ⟨i, rest, hd, hrec, stepWith_next_running h ▸ hrun⟩

/-- The operation of a decoded instruction is that of the opcode byte, and its bytes end below address 256. -/
theorem decode_fetchBytes_ok {m : OpcodeMap} {s : State} {i : Instr} {rest : List Byte}
    (h : decodeWith m (fetchBytes s) = .ok (i, rest)) :
    lookup m (s.mem.read s.pc.toNat) = some i.mnemonic ∧ s.pc.toNat + arity i.mnemonic ≤ 255 := by
  obtain ⟨opc, tail, n, hf, hl, ht, -⟩ := decodeWith_ok h
  have hpc : s.pc.toNat ≤ 255 := by
    refine Classical.byContradiction fun hpc => ?_
    rw [fetchBytes_beyond (by omega)] at hf
    cases hf
  obtain ⟨tail', hf', hlen⟩ := fetchBytes_eq_cons hpc
  obtain ⟨rfl, rfl⟩ := List.cons_eq_cons.1 (hf'.symm.trans hf)
  obtain rfl := takeOperands_mnemonic ht
  refine ⟨hl, ?_⟩
  refine Classical.byContradiction fun hlt => ?_
  have h2 := arity_le_two i.mnemonic
  rw [takeOperands_missing (by omega)] at ht
  cases ht

/-! ### Which errors are raised -/

theorem fetchError_cause_ne_fatal (pc : Nat) (d : DecodeError) : (fetchError pc d).cause ≠ .fatalError := by
  cases d <;> nofun

theorem ExecError.cause_ne_fatal {i : Instr} {s : State} {e : CoreError} (h : ExecError i s e) :
    e.cause ≠ .fatalError := by cases h <;> nofun

theorem mnemonic_eq_halt {i : Instr} : i.mnemonic = .halt ↔ i = .halt := by
  cases i <;> simp [Instr.mnemonic]

/-- HALT raises nothing. -/
theorem ExecError.mnemonic_ne_halt {i : Instr} {s : State} {e : CoreError} (h : ExecError i s e) :
    i.mnemonic ≠ .halt := by
  rw [Ne, mnemonic_eq_halt]
  rintro rfl
  cases h with
  | register b hb => cases hb
  | push hi | pop hi => obtain hi | hi := hi <;> cases hi
  | call hi => cases hi

/-- A byte in the 10-bit error value is itself: it is not negative. -/
theorem toInt_setWidth_ten (b : Byte) : (b.setWidth 10).toInt = b.toNat := by
  have hlt : b.toNat < 256 := b.isLt
  rw [BitVec.toInt_eq_toNat_of_lt, BitVec.toNat_setWidth_of_le (by decide)]
  rw [BitVec.toNat_setWidth_of_le (by decide)]
  omega

theorem value_address_256 : (CoreError.address 256).value.toInt = 256 := by decide

theorem value_address_neg_one : (CoreError.address (-1)).value.toInt = -1 := by decide

theorem errRecordLegal_address_256 {e : CoreError} (h : e = .address 256) :
    errRecordLegal e.cause e.value.toInt := by subst h; exact .inr value_address_256

theorem errRecordLegal_register {b : Byte} (h : 8 ≤ b.toNat) :
    errRecordLegal (CoreError.register b).cause (CoreError.register b).value.toInt := by
  have hlt : b.toNat < 256 := b.isLt
  show 8 ≤ (b.setWidth 10).toInt ∧ (b.setWidth 10).toInt ≤ 255
  rw [toInt_setWidth_ten]
  omega

theorem errRecordLegal_unknownOpcode (b : Byte) :
    errRecordLegal (CoreError.unknownOpcode b).cause (CoreError.unknownOpcode b).value.toInt := by
  have hlt : b.toNat < 256 := b.isLt
  show 0 ≤ (b.setWidth 10).toInt ∧ (b.setWidth 10).toInt ≤ 255
  rw [toInt_setWidth_ten]
  omega

/-- The errors of the execute phase record values the spec gives them, where the instruction's own bytes end
below address 256 (60_exceptions.md R242, R243). -/
theorem ExecError.errRecordLegal {i : Instr} {s : State} {e : CoreError} (h : ExecError i s e)
    (hfit : s.pc.toNat + arity i.mnemonic ≤ 255) : errRecordLegal e.cause e.value.toInt := by
  cases h with
  | register b hb => exact errRecordLegal_register (eight_le_of_firstIllegal hb)
  | push hi hw hz => exact .inl value_address_neg_one
  | pop hi hw hz => exact errRecordLegal_address_256 rfl
  | call hi hw hp =>
    rw [hi, arity] at hfit
    exact errRecordLegal_address_256 (congrArg CoreError.address (by omega))

/-- The AddressErrors of the execute phase: a return address beyond memory, and the two ends of the stack. -/
theorem ExecError.address_cases {i : Instr} {s : State} {e : CoreError} (h : ExecError i s e)
    (hcause : e.cause = .addressError) (hfit : s.pc.toNat + arity i.mnemonic ≤ 255) :
    (i.mnemonic = .call ∧ s.pc.toNat = 254 ∧ e.value.toInt = 256) ∨
    ((i.mnemonic = .push ∨ i.mnemonic = .call) ∧ s.sp = 0 ∧ e.value.toInt = -1) ∨
    ((i.mnemonic = .pop ∨ i.mnemonic = .ret) ∧ s.sp = 255 ∧ e.value.toInt = 256) := by
  cases h with
  | register b hb => cases hcause
  | push hi hw hz => exact .inr (.inl ⟨hi, BitVec.eq_of_toNat_eq hz, value_address_neg_one⟩)
  | pop hi hw hz => exact .inr (.inr ⟨hi, BitVec.eq_of_toNat_eq hz, value_address_256⟩)
  | call hi hw hp =>
    rw [hi, arity] at hfit
    have h254 : s.pc.toNat = 254 := by omega
    exact .inl ⟨hi, h254, by rw [h254]; exact value_address_256⟩

/-! ### The invariant -/

theorem Inv.noError_of_running {s : State} (h : Inv s) (hr : s.runState = .running) :
    s.errCause = .noError := Classical.not_not.1 fun hc => by
  have hf := h.faultedIff.2 hc
  rw [hr] at hf
  cases hf

/-- Raising an error of a running machine keeps the invariant. -/
theorem Inv.raise {s : State} {e : CoreError} (h : Inv s) (he : errRecordLegal e.cause e.value.toInt) :
    Inv (s.raise e) where
  pcBound := h.pcBound
  memWf := h.memWf
  memRange := h.memRange
  faultedIff := iff_of_true rfl e.cause_ne_noError
  errPcIs := rfl
  errValLegal := he
  loaded := nofun

/-- A change of registers, pc, memory and output that stays in bounds keeps the invariant, whether or not the
machine halts. -/
theorem Inv.of_sameRecord {s t : State} (h : Inv s) (hr : s.runState = .running) (hrec : sameRecord s t)
    (hrun : t.runState = .halted ∨ t.runState = .running) (hpc : t.pc.toNat ≤ 256)
    (hw : t.mem.wf = true) (hin : t.mem.inRange = true) : Inv t := by
  obtain ⟨hcause, hepc, hval, hload⟩ := hrec
  have hnf : t.runState ≠ .faulted := by obtain h | h := hrun <;> simp [h]
  have hsf : s.runState ≠ .faulted := by simp [hr]
  have hno := h.noError_of_running hr
  exact {
    pcBound := hpc
    memWf := hw
    memRange := hin
    faultedIff := iff_of_false hnf (by simp [hcause, hno])
    errPcIs := by rw [hepc, h.errPcIs, if_neg hsf, if_neg hnf]
    errValLegal := by rw [hcause, hval]; exact h.errValLegal
    loaded := fun _ => hload.trans (h.loaded hr) }

theorem ExecNext.mem_wf {s t : State} {i : Instr} (h : ExecNext s i t) (hw : s.mem.wf = true) :
    t.mem.wf = true := by
  obtain hm | ⟨-, -, v, hm⟩ := h.mem_cases <;> rw [hm]
  · exact hw
  · exact Memory.wf_write _ v hw

theorem ExecNext.mem_inRange {s t : State} {i : Instr} (h : ExecNext s i t)
    (hin : s.mem.inRange = true) : t.mem.inRange = true := by
  have hlt : s.sp.toNat < 256 := s.sp.isLt
  obtain hm | ⟨-, hz, v, hm⟩ := h.mem_cases <;> rw [hm]
  · exact hin
  · exact Memory.inRange_write v (show s.sp.toNat - 1 < 256 by omega) hin

/-- The pc after an instruction whose own bytes end below address 256 is at most 256 (10_state.md R27). -/
theorem ExecNext.pc_le {s t : State} {i : Instr} (h : ExecNext s i t)
    (hfit : s.pc.toNat + arity i.mnemonic ≤ 255) : t.pc.toNat ≤ 256 := by
  have jump (u : State) (v : Byte) : (u.jumpTo v).pc.toNat ≤ 256 := by
    have hlt : v.toNat < 256 := v.isLt
    rw [State.jumpTo_pc_toNat]
    omega
  have two (u : State) (h : u.pc.toNat ≤ 254) : (u.advance 2).pc.toNat ≤ 256 := by
    rw [State.advance_two_pc_toNat u h]
    omega
  have three (u : State) (h : u.pc.toNat ≤ 253) : (u.advance 3).pc.toNat ≤ 256 := by
    rw [State.advance_three_pc_toNat u h]
    omega
  cases h with
  | raise i e he => exact show s.pc.toNat ≤ 256 by omega
  | halt => exact Nat.le_succ_of_le hfit
  | loadImmediate | add | multiply | compare => exact three _ (Nat.le_of_add_le_add_right (b := 2) hfit)
  | print | push | pop => exact two _ (Nat.le_of_add_le_add_right (b := 1) hfit)
  | call | ret | jump => exact jump _ _
  | jumpIfEqual r hr =>
    split
    · exact jump _ _
    · exact two s (Nat.le_of_add_le_add_right (b := 1) hfit)
  | jumpIfNotEqual r hr =>
    split
    · exact two s (Nat.le_of_add_le_add_right (b := 1) hfit)
    · exact jump _ _

/-- Why decoding fails: a byte after those given is missing, the opcode is unknown, or a register operand is
illegal. -/
theorem decodeWith_error_cases {m : OpcodeMap} {bs : List Byte} {d : DecodeError}
    (h : decodeWith m bs = .error d) :
    (d = .missingByte bs.length ∧ bs.length < 3) ∨ (∃ b, d = .unknownOpcode b) ∨
      (∃ (i : Instr) (b : Byte), i.firstIllegal = some b ∧ d = .badRegister b) := by
  cases bs with
  | nil => cases h; exact .inl ⟨rfl, by decide⟩
  | cons opc tail =>
    cases hl : lookup m opc with
    | none =>
      rw [decodeWith_unknown hl] at h
      cases h
      exact .inr (.inl ⟨opc, rfl⟩)
    | some n =>
      have h2 := arity_le_two n
      by_cases hlen : tail.length < arity n
      · rw [decodeWith_missing hl hlen] at h
        cases h
        exact .inl ⟨rfl, by rw [List.length_cons]; omega⟩
      · have ht := takeOperands_enough (Nat.not_lt.1 hlen)
        cases hi : (Instr.ofOperands n (tail.getD 0 0) (tail.getD 1 0)).firstIllegal with
        | none =>
          rw [decodeWith_legal hl ht (Instr.firstIllegal_eq_none.1 hi)] at h
          cases h
        | some b =>
          rw [decodeWith_illegal hl ht hi] at h
          cases h
          exact .inr (.inr ⟨_, b, hi, rfl⟩)

theorem fetchBytes_length (s : State) : (fetchBytes s).length = min 3 (256 - s.pc.toNat) := by
  by_cases h : s.pc.toNat ≤ 255
  · obtain ⟨tail, hf, hlen⟩ := fetchBytes_eq_cons h
    rw [hf, List.length_cons, hlen]
    omega
  · rw [fetchBytes_beyond (by omega), List.length_nil]
    omega

/-- The error a fetch raises records a value the spec gives it (60_exceptions.md R242 to R244). -/
theorem errRecordLegal_fetchError {m : OpcodeMap} {s : State} {d : DecodeError} (hpc : s.pc.toNat ≤ 256)
    (h : decodeWith m (fetchBytes s) = .error d) :
    errRecordLegal (fetchError s.pc.toNat d).cause (fetchError s.pc.toNat d).value.toInt := by
  obtain ⟨rfl, hlen⟩ | ⟨b, rfl⟩ | ⟨i, b, hb, rfl⟩ := decodeWith_error_cases h
  · rw [fetchBytes_length] at hlen ⊢
    exact errRecordLegal_address_256 (congrArg CoreError.address (by omega))
  · exact errRecordLegal_unknownOpcode b
  · exact errRecordLegal_register (eight_le_of_firstIllegal hb)

end Sys2Proof.Machine
end

section
/-! PROOFS. The step (spec/40_step_cycle.md, 60_exceptions.md). -/

namespace Sys2Proof.Machine

/-- Settles O18: an error records a legal value; any other answer keeps the record and stays in bounds. -/
theorem stepKeepsInv : Obligations.StepKeepsInv := fun m s t hinv h => by
  have hr := stepWith_next_running h
  obtain ⟨d, hd, rfl⟩ | ⟨i, rest, hd, hn⟩ := stepWith_next_cases h
  · exact hinv.raise (errRecordLegal_fetchError hinv.pcBound hd)
  · obtain ⟨-, hfit⟩ := decode_fetchBytes_ok hd
    obtain ⟨e, he, rfl⟩ | ⟨hrec, hrun⟩ := hn.control_cases
    · exact hinv.raise (he.errRecordLegal hfit)
    · refine hinv.of_sameRecord hr hrec ?_ (hn.pc_le hfit) (hn.mem_wf hinv.memWf)
        (hn.mem_inRange hinv.memRange)
      rw [hrun, hr]
      split
      · exact .inl rfl
      · exact .inr rfl

/-- Every instruction answers a next state. -/
theorem exec_total (i : Instr) (s : State) : ∃ t, exec i s = .next t := by
  have total (r : Except CoreError State) : ∃ t, settle s r = .next t := by
    cases r with
    | ok t => exact ⟨t, rfl⟩
    | error e => exact ⟨_, rfl⟩
  cases i with
  | halt => exact ⟨_, exec_halt s⟩
  | _ => exact total _

/-- Settles O11: a step of a running machine raises or executes, and both answer a next state. -/
theorem stepIsDefinedExactlyInRunning : Obligations.StepIsDefinedExactlyInRunning := fun m s => by
  refine ⟨fun hr => ?_, fun hr => by simp [stepWith, hr], fun hr => by simp [stepWith, hr],
    fun hr => by simp [stepWith, hr]⟩
  have total : ∃ t, stepWith m s = .next t := by
    obtain ⟨e, -, hs⟩ | ⟨i, rest, -, hs⟩ := stepWith_running (m := m) hr
    · exact ⟨_, hs⟩
    · rw [hs]
      exact exec_total i s
  obtain ⟨t, ht⟩ := total
  exact ⟨t, ht, fun u hu => by rw [ht] at hu; cases hu; rfl⟩

/-- Settles O12: the step of the decoded instruction, and the bytes of a fetch one by one. -/
theorem stepRunsDecodedInstruction : Obligations.StepRunsDecodedInstruction := fun m s i rest hr h => by
  have hs := stepWith_of_decode_ok hr h
  obtain ⟨-, -, -, -, -, -, hw⟩ := decodeWith_ok h
  refine ⟨hs, fun hm => ?_, hw, fun k b => ?_⟩
  · subst hm
    exact hs
  · rw [fetchBytes_getElem?]
    by_cases hk : k < 3 ∧ s.pc.toNat + k < 256
    · rw [if_pos hk]
      exact ⟨fun hb => ⟨hk.1, hk.2, (Option.some.inj hb).symm⟩, fun ⟨_, _, hb⟩ => congrArg some hb.symm⟩
    · rw [if_neg hk]
      exact iff_of_false nofun fun ⟨hk3, hk256, _⟩ => hk ⟨hk3, hk256⟩

/-- Settles O13: the four cases of a step, and in the last the register check before all else. -/
theorem fetchAndDecodeErrorsInOrder : Obligations.FetchAndDecodeErrorsInOrder := fun m s hr => by
  refine ⟨stepWith_beyond hr, stepWith_unknown hr, fun n hpc hl =>
    ⟨fun ha h255 => stepWith_missing hr hpc hl (by omega),
      fun ha h254 => stepWith_missing hr hpc hl (by omega),
      fun hfit => ⟨fun h1 hb => ?_, fun h2 hb1 hb2 => ?_⟩⟩⟩
  · rw [stepWith_exec hr hl hfit]
    exact exec_of_regError s (by simp [regError, h1, Nat.lt_of_succ_le hb])
  · have hle := Nat.le_of_lt_succ hb1
    rw [stepWith_exec hr hl hfit]
    exact exec_of_regError s (by simp [regError, h2, Nat.not_lt.2 hle, Nat.lt_of_succ_le hb2])

/-- Settles O14: the answer that raises is the raised state; any other leaves the machine running or
halted. -/
theorem faultsArePrecise : Obligations.FaultsArePrecise := fun m s t h hf => by
  obtain ⟨e, rfl⟩ | ⟨i, rest, -, -, hrun⟩ := stepWith_control_cases h
  · exact ⟨e, raised_raise s e, e.cause_ne_noError⟩
  · rw [hrun] at hf
    split at hf <;> cases hf

/-- Settles O15: the values in 10 bits of two's complement, the codes by their table. -/
theorem errorCodesAndValues : Obligations.ErrorCodesAndValues := by
  refine ⟨fun a hlo hhi => ?_, fun _ => rfl, fun b => ⟨toInt_setWidth_ten b, rfl⟩,
    fun b => ⟨toInt_setWidth_ten b, rfl⟩, fun sel => ⟨?_, rfl⟩, rfl, rfl, rfl, rfl, rfl⟩
  · exact BitVec.toInt_ofInt_eq_self (by decide) hlo hhi
  · revert sel
    decide

/-- Settles O16: the four cases of a step give the first three; the errors of the execute phase the others. -/
theorem addressErrorCases : Obligations.AddressErrorCases := fun m s t hinv h hcause => by
  have hr := stepWith_next_running h
  have hbound := hinv.pcBound
  by_cases hpc : 255 < s.pc.toNat
  · rw [stepWith_beyond hr hpc] at h
    cases h
    have h256 : s.pc.toNat = 256 := by omega
    exact .inl ⟨h256, by rw [h256]; exact value_address_256⟩
  cases hl : lookup m (s.mem.read s.pc.toNat) with
  | none =>
    rw [stepWith_unknown hr (by omega) hl] at h
    cases h
    cases hcause
  | some n =>
    have h2 := arity_le_two n
    by_cases hfit : 255 < s.pc.toNat + arity n
    · rw [stepWith_missing hr (by omega) hl hfit] at h
      cases h
      obtain h255 | h254 : s.pc.toNat = 255 ∨ s.pc.toNat = 254 := by omega
      · exact .inr (.inl ⟨n, rfl, by omega, h255, value_address_256⟩)
      · exact .inr (.inr (.inl ⟨n, rfl, by omega, h254, value_address_256⟩))
    · rw [stepWith_exec hr hl (by omega)] at h
      obtain ⟨e, he, rfl⟩ | ⟨⟨hkeep, -⟩, -⟩ := (exec_cases h).control_cases
      · have hcases := he.address_cases hcause (by rw [Instr.ofOperands_mnemonic]; omega)
        rw [Instr.ofOperands_mnemonic] at hcases
        simp only [Option.some.injEq]
        exact .inr (.inr (.inr hcases))
      · rw [hkeep, hinv.noError_of_running hr] at hcause
        cases hcause

/-- Settles O17: neither a failed decode nor the execute phase raises FatalError, and every other answer keeps
the record. -/
theorem fatalErrorUnreachable : Obligations.FatalErrorUnreachable := by
  have execNext {i : Instr} {s t : State} (hs : s.errCause ≠ .fatalError) (h : ExecNext s i t) :
      t.errCause ≠ .fatalError := by
    obtain ⟨e, he, rfl⟩ | ⟨⟨hkeep, -⟩, -⟩ := h.control_cases
    · exact he.cause_ne_fatal
    · rwa [hkeep]
  refine ⟨fun m s t hs h => ?_, fun i s t hs h => execNext hs (exec_cases h)⟩
  obtain ⟨d, -, rfl⟩ | ⟨i, rest, -, hn⟩ := stepWith_next_cases h
  · exact fetchError_cause_ne_fatal _ d
  · exact execNext hs hn

/-- Settles O20: HALT is the only instruction that ends in HALTED; a raise ends in FAULTED. -/
theorem runEndsByHaltOrError : Obligations.RunEndsByHaltOrError := fun m s t h => by
  obtain ⟨d, hd, rfl⟩ | ⟨i, rest, hd, hn⟩ := stepWith_next_cases h
  · refine ⟨iff_of_false nofun ?_, nofun, fun _ => .inr ⟨_, raised_raise s _⟩⟩
    rintro ⟨rest, hok⟩
    rw [hd] at hok
    cases hok
  · have hhalt : (∃ rest, decodeWith m (fetchBytes s) = .ok (.halt, rest)) ↔ i.mnemonic = .halt := by
      rw [hd, mnemonic_eq_halt]
      simp
    rw [hhalt]
    obtain ⟨e, he, rfl⟩ | ⟨-, hrun⟩ := hn.control_cases
    · exact ⟨iff_of_false nofun he.mnemonic_ne_halt, nofun, fun _ => .inr ⟨e, raised_raise s e⟩⟩
    · rw [hrun, stepWith_next_running h]
      by_cases hi : i.mnemonic = .halt <;> simp [hi]

/-- Settles O21: a change of memory is a write at `pushAddr`, by PUSH or CALL, whose opcode byte was read. -/
theorem onlyStackWritesChangeMemory : Obligations.OnlyStackWritesChangeMemory := fun m s t a h hne => by
  obtain ⟨d, -, rfl⟩ | ⟨i, rest, hd, hn⟩ := stepWith_next_cases h
  · exact absurd rfl hne
  · obtain ⟨hl, -⟩ := decode_fetchBytes_ok hd
    refine ⟨Classical.not_not.1 fun ha => hne (hn.frame_mem_pushAddr a ha), ?_⟩
    obtain hm | ⟨hi, -⟩ := hn.mem_cases
    · exact absurd (by rw [hm]) hne
    · simpa [hl] using hi

/-- Settles O22: an answer that is not PRINT's leaves the output alone. -/
theorem outputGrowsByPrintOnly : Obligations.OutputGrowsByPrintOnly := fun m s t h => by
  obtain ⟨d, -, rfl⟩ | ⟨i, rest, hd, hn⟩ := stepWith_next_cases h
  · exact .inl rfl
  · obtain ho | ⟨r, hr, rfl, ho⟩ := hn.out_cases
    · exact .inl ho
    · exact .inr ⟨r, rest, hd, hr, ho⟩

theorem regIndex3_legal {b : Byte} (h : b.toNat < 8) : regIndex3 b = ⟨b.toNat, h⟩ :=
  Fin.ext (Nat.mod_eq_of_lt h)

/-- Settles O23: each answer moves the pc as the row of its operation says. -/
theorem pcFollowsSelector : Obligations.PcFollowsSelector := fun i s t _ _ h hf => by
  cases exec_cases h with
  | raise i e he => exact absurd rfl hf
  | call r hr | jump r hr =>
    simp only [Instr.regOperands, List.headD_cons, regIndex3_legal hr]
    rfl
  | jumpIfEqual r hr | jumpIfNotEqual r hr =>
    simp only [Instr.regOperands, List.headD_cons, regIndex3_legal hr]
    cases s.eqFlag <;> simp [pcSel, nextPc, Instr.mnemonic]
  | _ => rfl

end Sys2Proof.Machine
end

section
/-! SUPPORT. What each host action answers in each run state, and the cells the loader leaves
(spec/70_reset_and_hazards.md R280 to R288). -/

namespace Sys2Proof.Machine

/-! ### Host actions by run state -/

theorem loaderWrite_of_loading {s : State} (h : s.runState = .loading) (a v : Byte) :
    loaderWrite s a v = { s with mem := s.mem.write a.toNat v, progLoaded := true } := by
  simp [loaderWrite, h]

theorem loaderWrite_of_ne_loading {s : State} (h : s.runState ≠ .loading) (a v : Byte) :
    loaderWrite s a v = s := by
  cases hr : s.runState with
  | loading => exact absurd hr h
  | _ => simp [loaderWrite, hr]

theorem hostStart_of_loading {s : State} (h : s.runState = .loading) :
    hostStart s = { s with runState := if s.progLoaded then .running else .halted } := by
  simp [hostStart, h]

theorem hostStart_of_ne_loading {s : State} (h : s.runState ≠ .loading) : hostStart s = s := by
  cases hr : s.runState with
  | loading => exact absurd hr h
  | _ => simp [hostStart, hr]

/-! ### The loader's pairs -/

/-- In LOADING the loader changes memory and `prog_loaded` only, and `prog_loaded` by any pair. -/
theorem loadPairs_of_loading : ∀ (ps : List (Byte × Byte)) {s : State}, s.runState = .loading →
    loadPairs s ps =
      { s with mem := (loadPairs s ps).mem, progLoaded := s.progLoaded || !ps.isEmpty }
  | [], s, _ => by simp [loadPairs]
  | (a, v) :: rest, s, h => by
    have ih := loadPairs_of_loading rest (s := loaderWrite s a v) (by rw [loaderWrite_of_loading h]; exact h)
    rw [loadPairs, ih, loaderWrite_of_loading h]
    simp

theorem loadPairs_wf : ∀ (ps : List (Byte × Byte)) {s : State}, s.mem.wf = true →
    (loadPairs s ps).mem.wf = true
  | [], _, h => h
  | (a, v) :: rest, _, h => loadPairs_wf rest (loaderWrite_wf a v h)

/-- The byte a cell has after the loader's pairs: that of the last pair that names it. -/
theorem loadPairs_read : ∀ (ps : List (Byte × Byte)) {s : State}, s.runState = .loading →
    s.mem.wf = true → ∀ a : Byte, (loadPairs s ps).mem.read a.toNat =
      ((ps.reverse.find? fun p => p.1 = a).map Prod.snd).getD (s.mem.read a.toNat)
  | [], _, _, _, _ => rfl
  | (b, v) :: rest, s, h, hw, a => by
    have ih := loadPairs_read rest (s := loaderWrite s b v) (by rw [loaderWrite_of_loading h]; exact h)
      (loaderWrite_wf b v hw) a
    rw [loadPairs, ih, List.reverse_cons, List.find?_append, loaderWrite_of_loading h]
    cases hf : rest.reverse.find? fun p => p.1 = a with
    | some p => rfl
    | none =>
      by_cases hba : b = a
      · subst hba
        simp [Memory.read_write_same _ v hw]
      · have hne : a.toNat ≠ b.toNat := fun e => hba (BitVec.eq_of_toNat_eq e).symm
        simp [hba, Memory.read_write_ne s.mem v hne]

/-- Bytes loaded at rising addresses from `n` up stand there, and the cells below `n` are as before. -/
theorem loadPairs_mapIdx_read : ∀ (bs : List Byte) (n : Nat) {s : State}, s.runState = .loading →
    s.mem.wf = true → n + bs.length ≤ 256 →
    let t := loadPairs s (bs.mapIdx fun k v => (BitVec.ofNat 8 (n + k), v))
    (∀ (k : Nat) (v : Byte), bs[k]? = some v → t.mem.read (n + k) = v) ∧
      ∀ a, a < n → t.mem.read a = s.mem.read a
  | [], _, _, _, _, _ => ⟨by simp, fun _ _ => rfl⟩
  | b :: bs, n, s, h, hw, hl => by
    rw [List.length_cons] at hl
    have hn : (BitVec.ofNat 8 n).toNat = n := by
      rw [BitVec.toNat_ofNat, Nat.mod_eq_of_lt (by omega)]
    obtain ⟨hcells, hbelow⟩ := loadPairs_mapIdx_read bs (n + 1) (s := loaderWrite s (.ofNat 8 n) b)
      (by rw [loaderWrite_of_loading h]; exact h) (loaderWrite_wf _ b hw) (by omega)
    have hcons : (b :: bs).mapIdx (fun k v => ((BitVec.ofNat 8 (n + k), v) : Byte × Byte)) =
        (BitVec.ofNat 8 n, b) :: bs.mapIdx fun k v => (BitVec.ofNat 8 (n + 1 + k), v) := by
      simp [List.mapIdx_cons, Nat.add_comm, Nat.add_left_comm]
    rw [hcons]
    refine ⟨fun k v hk => ?_, fun a ha => ?_⟩
    · cases k with
      | zero =>
        obtain rfl : b = v := by simpa using hk
        refine (hbelow n (Nat.lt_succ_self n)).trans ?_
        rw [loaderWrite_of_loading h, hn]
        exact Memory.read_write_same n b hw
      | succ k =>
        rw [show n + (k + 1) = n + 1 + k by omega]
        exact hcells k v (by simpa using hk)
    · refine (hbelow a (by omega)).trans ?_
      rw [loaderWrite_of_loading h, hn]
      exact Memory.read_write_ne s.mem b (by omega)

/-! ### Loaded bytes as a fetch -/

/-- Bytes that stand in memory from the pc up head the fetch. -/
theorem fetchBytes_eq_append {s : State} {bs : List Byte} (hlen : bs.length ≤ 3)
    (hfit : s.pc.toNat + bs.length ≤ 256)
    (h : ∀ (k : Nat) (v : Byte), bs[k]? = some v → s.mem.read (s.pc.toNat + k) = v) :
    ∃ rest, fetchBytes s = bs ++ rest := by
  have htake : (fetchBytes s).take bs.length = bs := by
    refine List.ext_getElem? fun k => ?_
    rw [List.getElem?_take]
    by_cases hk : k < bs.length
    · rw [if_pos hk, fetchBytes_getElem?, if_pos (by omega), List.getElem?_eq_getElem hk,
        h k _ (List.getElem?_eq_getElem hk)]
    · rw [if_neg hk, List.getElem?_eq_none (Nat.not_lt.1 hk)]
  exact ⟨(fetchBytes s).drop bs.length,
    (List.take_append_drop _ _).symm.trans (congrArg (· ++ _) htake)⟩

/-- A running machine executes the instruction whose bytes head the fetch. -/
theorem stepWith_of_encoding {m : OpcodeMap} {i : Instr} {s : State} {rest : List Byte} (hm : m.Legal)
    (hw : i.wf = true) (hr : s.runState = .running) (h : fetchBytes s = encodeWith m i ++ rest) :
    stepWith m s = exec i s :=
  stepWith_of_decode_ok hr (h ▸ decodeOfEncode m i rest hm hw)

/-! ### The invariant at reset -/

theorem inv_resetWith (f : Nat → Byte) : Inv (State.resetWith f) where
  pcBound := by simp
  memWf := by rw [State.resetWith_mem]; exact Memory.wf_ofFun f _
  memRange := by rw [State.resetWith_mem]; exact Memory.inRange_ofFun f _ (Nat.le_refl _)
  faultedIff := by simp
  errPcIs := by simp
  errValLegal := by simp [errRecordLegal]
  loaded := by simp

/-- What the loader and `start` write in LOADING keeps the invariant. -/
theorem Inv.of_loading {s : State} (h : Inv s) (hs : s.runState = .loading) {mem : Memory} {p : Bool}
    {r : RunState} (hw : mem.wf = true) (hin : mem.inRange = true) (hr : r ≠ .faulted)
    (hp : r = .running → p = true) : Inv { s with mem := mem, progLoaded := p, runState := r } where
  pcBound := h.pcBound
  memWf := hw
  memRange := hin
  faultedIff := iff_of_false hr (by rw [← h.faultedIff, hs]; nofun)
  errPcIs := by rw [if_neg hr, h.errPcIs, hs]; rfl
  errValLegal := h.errValLegal
  loaded := hp

theorem memory_ofFun_zero : ∀ n : Nat, Memory.ofFun (fun _ => 0) n = []
  | 0 => rfl
  | n + 1 => by rw [Memory.ofFun, memory_ofFun_zero n]; rfl

end Sys2Proof.Machine
end

section
/-! PROOFS. Reset and the host (spec/70_reset_and_hazards.md, 10_state.md R42). -/

namespace Sys2Proof.Machine

/-- Settles O1: the reset state field by field; only register 7 differs from 0. -/
theorem resetValues : Obligations.ResetValues :=
  ⟨by decide, rfl, fun _ => rfl, rfl, rfl, rfl, rfl, rfl, rfl⟩

/-- Settles O2: writing 0 into every cell lists none, and the cells written read back. -/
theorem resetMeetsInvForEveryMemInit : Obligations.ResetMeetsInvForEveryMemInit := by
  refine ⟨?_, fun f => ⟨inv_resetWith f, fun a ha => ?_⟩⟩
  · rw [State.resetWith_eq, memory_ofFun_zero]
    rfl
  · rw [State.resetWith_mem, Memory.read_ofFun, if_pos ha]

/-- Settles O3, by induction on the pairs: a later pair overrides an earlier one. -/
theorem loaderLastWriteStands : Obligations.LoaderLastWriteStands := fun s ps h hw => by
  have hfields := loadPairs_of_loading ps h
  refine ⟨fun a => ?_, ?_⟩
  · rw [loadPairs_read ps h hw a]
    cases ps.reverse.find? fun p => p.1 = a <;> rfl
  · rw [hfields]
    exact ⟨rfl, rfl, rfl, rfl, h⟩

/-- Settles O4: the three answers of `start` and the loader. -/
theorem startAndLoaderOnlyInLoading : Obligations.StartAndLoaderOnlyInLoading := fun s =>
  ⟨fun h hp => by rw [hostStart_of_loading h, hp]; rfl,
    fun h hp => by rw [hostStart_of_loading h, hp]; rfl,
    fun h => ⟨hostStart_of_ne_loading h, loaderWrite_of_ne_loading h⟩⟩

/-- Settles O5: reset meets the invariant, and in LOADING the other two stay within it. -/
theorem hostActionsKeepInv : Obligations.HostActionsKeepInv := fun f s a hinv => by
  cases a with
  | reset => exact inv_resetWith f
  | load a v =>
    rw [hostAct]
    by_cases h : s.runState = .loading
    · rw [loaderWrite_of_loading h]
      exact hinv.of_loading h (Memory.wf_write _ v hinv.memWf) (Memory.inRange_write v a.isLt hinv.memRange)
        (by rw [h]; nofun) fun _ => rfl
    · rwa [loaderWrite_of_ne_loading h]
  | start =>
    rw [hostAct]
    by_cases h : s.runState = .loading
    · rw [hostStart_of_loading h]
      refine hinv.of_loading h hinv.memWf hinv.memRange ?_ ?_ <;> cases s.progLoaded <;> decide
    · rwa [hostStart_of_ne_loading h]

/-- Settles O19, by induction on the run: reset meets the invariant, host actions and steps keep it. -/
theorem reachableStatesMeetInv : Obligations.ReachableStatesMeetInv := fun m f s h => by
  induction h with
  | reset => exact inv_resetWith f
  | host s a _ ih => exact hostActionsKeepInv f s a ih
  | step s t _ hs ih => exact stepKeepsInv m s t ih hs

/-- Settles O6: the bytes loaded are the head of the first fetch, and decode to the instruction. -/
theorem loadedInstructionRunsFirst : Obligations.LoadedInstructionRunsFirst := fun m f i hm hw => by
  intro loaded
  have hw0 : (State.resetWith f).mem.wf = true := (inv_resetWith f).memWf
  have hlen : (encodeWith m i).length ≤ 3 := encodeWith_length m i ▸ i.length_bounds.2
  have hload := loadPairs_of_loading ((encodeWith m i).mapIdx fun k v => (BitVec.ofNat 8 k, v))
    (State.resetWith_runState f)
  have hpc : loaded.pc = 0 := (congrArg State.pc hload).trans (State.resetWith_pc f)
  have hprog : loaded.progLoaded = true := by
    refine (congrArg State.progLoaded hload).trans ?_
    rw [encodeWith_eq_cons, List.mapIdx_cons, List.isEmpty_cons, Bool.not_false, Bool.or_true]
  have hstart : hostStart loaded = { loaded with runState := .running } := by
    rw [hostStart_of_loading ((congrArg State.runState hload).trans (State.resetWith_runState f)), hprog]
    rfl
  have hcells := (loadPairs_mapIdx_read (encodeWith m i) 0 (State.resetWith_runState f) hw0 (by omega)).1
  simp only [Nat.zero_add] at hcells
  have hfetch : ∃ rest, fetchBytes { loaded with runState := .running } = encodeWith m i ++ rest := by
    refine fetchBytes_eq_append hlen ?_ fun k v hk => ?_
    · simp only [hpc]
      exact Nat.le_trans (Nat.add_le_add_left hlen _) (by decide)
    · simp only [hpc]
      simpa using hcells k v hk
  obtain ⟨rest, hrest⟩ := hfetch
  rw [hstart]
  exact ⟨stepWith_of_encoding hm hw rfl hrest, rfl, hpc⟩

end Sys2Proof.Machine
end

section
/-! SUPPORT. The EXEC phase computes what `exec` answers: the stack manager by case, the first error, and the
writes of the edge that ends EXEC (spec/49_core_blocks.md R203 to R212). -/

namespace Sys2Proof.Machine

/-! ### The stack manager -/

theorem stackManager_push_at_zero {sp : Byte} (v : Byte) (h : sp.toNat = 0) :
    (stackManager .push sp v).err = some (-1) := by simp [stackManager, h]

theorem stackManager_push {sp : Byte} (v : Byte) (h : sp.toNat ≠ 0) :
    stackManager .push sp v =
      { addr := (sp.toNat - 1 : Nat), write := some v, spWrite := some (sp - 1), err := none } := by
  have haddr : (sp.toNat : Int) - 1 = (sp.toNat - 1 : Nat) := by omega
  have hsp : BitVec.ofNat 8 (sp.toNat - 1) = sp - 1 := by
    apply BitVec.eq_of_toNat_eq
    rw [toNat_sub_one h, BitVec.toNat_ofNat]
    exact Nat.mod_eq_of_lt (Nat.lt_of_le_of_lt (Nat.sub_le _ _) sp.isLt)
  simp only [stackManager, haddr, BitVec.ofInt_natCast, hsp]
  rw [if_neg (by omega)]

theorem stackManager_pop_at_top {sp : Byte} (v : Byte) (h : sp.toNat = 255) :
    (stackManager .pop sp v).err = some 256 := by simp [stackManager, h]

theorem stackManager_pop {sp : Byte} (v : Byte) (h : sp.toNat ≠ 255) :
    stackManager .pop sp v =
      { addr := sp.toNat, write := none, spWrite := some (sp + 1), err := none } := by
  have hlt : sp.toNat < 256 := sp.isLt
  have hsp : BitVec.ofInt 8 ((sp.toNat : Int) + 1) = sp + 1 := by
    apply BitVec.eq_of_toNat_eq
    rw [← Int.natCast_succ, BitVec.ofInt_natCast, BitVec.toNat_ofNat, BitVec.toNat_add]
    rfl
  simp only [stackManager, hsp]
  rw [if_neg (by omega)]

theorem stackManager_push_err_some {sp v : Byte} {e : CoreError}
    (h : (stackManager .push sp v).err.map CoreError.address = some e) :
    sp.toNat = 0 ∧ e = .address (-1) := by
  by_cases hz : sp.toNat = 0
  · rw [stackManager_push_at_zero v hz] at h
    cases h
    exact ⟨hz, rfl⟩
  · rw [stackManager_push v hz] at h
    cases h

theorem stackManager_push_err_none {sp v : Byte}
    (h : (stackManager .push sp v).err.map CoreError.address = none) : sp.toNat ≠ 0 := fun hz => by
  rw [stackManager_push_at_zero v hz] at h
  cases h

theorem stackManager_pop_err_some {sp v : Byte} {e : CoreError}
    (h : (stackManager .pop sp v).err.map CoreError.address = some e) :
    sp.toNat = 255 ∧ e = .address 256 := by
  by_cases hz : sp.toNat = 255
  · rw [stackManager_pop_at_top v hz] at h
    cases h
    exact ⟨hz, rfl⟩
  · rw [stackManager_pop v hz] at h
    cases h

theorem stackManager_pop_err_none {sp v : Byte}
    (h : (stackManager .pop sp v).err.map CoreError.address = none) : sp.toNat ≠ 255 := fun hz => by
  rw [stackManager_pop_at_top v hz] at h
  cases h

/-! ### Register operands that pass the check -/

theorem lt_eight_of_regError_none {n : Mnemonic} {a b : Byte} (h : regError n a b = none) :
    ((controlOf n).op1IsReg = true → a.toNat < 8) ∧ ((controlOf n).op2IsReg = true → b.toNat < 8) := by
  refine ⟨fun h1 => Classical.byContradiction fun hlt => ?_,
    fun h2 => Classical.byContradiction fun hlt => ?_⟩
  · have h7 : 7 < a.toNat := by omega
    simp [regError, h1, h7] at h
  · have h7 : 7 < b.toNat := by omega
    by_cases ha : (controlOf n).op1IsReg = true ∧ 7 < a.toNat <;> simp [regError, h2, h7, ha] at h

/-! ### The first error -/

/-- The stack error EXEC sees (49_core_blocks.md R205). -/
theorem execOut_stack (n : Mnemonic) (c : CState) :
    (execOut n c).stack =
      stackManager (controlOf n).stackOp c.arch.sp (pushValue n c.arch.pc c.arch.x[regIndex3 c.ir.op1]) :=
  rfl

theorem aluError_aluBlock (n : Mnemonic) (a b : Byte) : aluError (aluBlock n a b) = none := by
  cases n <;> rfl

/-- The errors of EXEC in the order of 40_step_cycle.md R108; the ALU raises none (42_alu.md R135). -/
theorem execOut_err (n : Mnemonic) (c : CState) :
    (execOut n c).err = (regError n c.ir.op1 c.ir.op2).or
      ((callError n c.arch.pc).or ((execOut n c).stack.err.map .address)) := by
  have h : (execOut n c).err = (regError n c.ir.op1 c.ir.op2).or ((callError n c.arch.pc).or
      (((execOut n c).stack.err.map .address).or (aluError (aluBlock n _ _)))) := rfl
  rw [h, aluError_aluBlock, Option.or_none]

/-- An error of EXEC is the one `exec` raises. -/
theorem exec_of_execOut_err {n : Mnemonic} {c : CState} {e : CoreError} (h : (execOut n c).err = some e) :
    exec (.ofOperands n c.ir.op1 c.ir.op2) c.arch = .next (c.arch.raise e) := by
  rw [execOut_err, Option.or_eq_some_iff] at h
  obtain hreg | ⟨hreg, h⟩ := h
  · exact exec_of_regError _ hreg
  obtain ⟨h1, -⟩ := lt_eight_of_regError_none hreg
  rw [execOut_stack] at h
  cases n with
  | push =>
    obtain ⟨hz, rfl⟩ := stackManager_push_err_some h
    exact exec_push_at_zero _ (h1 rfl) hz
  | pop =>
    obtain ⟨hz, rfl⟩ := stackManager_pop_err_some h
    exact exec_pop_at_top _ (h1 rfl) hz
  | ret =>
    obtain ⟨hz, rfl⟩ := stackManager_pop_err_some h
    exact exec_ret_at_top _ hz
  | call =>
    by_cases hp : 255 < c.arch.pc.toNat + 2
    · rw [callError, if_pos ⟨rfl, hp⟩] at h
      cases h
      exact exec_call_beyond _ (h1 rfl) hp
    · rw [callError, if_neg fun hc => hp hc.2] at h
      obtain ⟨hz, rfl⟩ := stackManager_push_err_some h
      exact exec_call_at_zero _ (h1 rfl) (Nat.not_lt.1 hp) hz
  | _ => cases h

/-- With no error the edge that ends EXEC makes the state `exec` answers. -/
theorem exec_of_execOut_ok {n : Mnemonic} {c : CState} (h : (execOut n c).err = none) :
    exec (.ofOperands n c.ir.op1 c.ir.op2) c.arch = .next (commitEdge c (execOut n c)).arch := by
  rw [execOut_err, Option.or_eq_none_iff, Option.or_eq_none_iff] at h
  obtain ⟨hreg, hcall, hstack⟩ := h
  obtain ⟨h1, h2⟩ := lt_eight_of_regError_none hreg
  rw [execOut_stack] at hstack
  cases n with
  | halt => exact exec_halt _
  | loadImmediate =>
    refine (exec_loadImmediate _ _ (h1 rfl)).trans ?_
    rw [← regIndex3_legal (h1 rfl)]
    rfl
  | print =>
    refine (exec_print _ (h1 rfl)).trans ?_
    rw [← regIndex3_legal (h1 rfl)]
    rfl
  | add =>
    refine (exec_add _ (h1 rfl) (h2 rfl)).trans ?_
    rw [← regIndex3_legal (h1 rfl), ← regIndex3_legal (h2 rfl)]
    rfl
  | multiply =>
    refine (exec_multiply _ (h1 rfl) (h2 rfl)).trans ?_
    rw [← regIndex3_legal (h1 rfl), ← regIndex3_legal (h2 rfl)]
    rfl
  | compare =>
    refine (exec_compare _ (h1 rfl) (h2 rfl)).trans ?_
    rw [← regIndex3_legal (h1 rfl), ← regIndex3_legal (h2 rfl)]
    rfl
  | push =>
    have hz := stackManager_push_err_none hstack
    refine (exec_push _ (h1 rfl) hz).trans ?_
    rw [← regIndex3_legal (h1 rfl)]
    simp only [commitEdge, execOut, controlOf, stackManager_push _ hz]
    rfl
  | pop =>
    have hz := stackManager_pop_err_none hstack
    refine (exec_pop _ (h1 rfl) hz).trans ?_
    rw [← regIndex3_legal (h1 rfl)]
    simp only [commitEdge, execOut, controlOf, stackManager_pop _ hz]
    rfl
  | call =>
    have hp : c.arch.pc.toNat + 2 ≤ 255 := by
      refine Classical.byContradiction fun hp => ?_
      rw [callError, if_pos ⟨rfl, by omega⟩] at hcall
      cases hcall
    have hz := stackManager_push_err_none hstack
    refine (exec_call _ (h1 rfl) hp hz).trans ?_
    rw [← regIndex3_legal (h1 rfl)]
    simp only [commitEdge, execOut, controlOf, stackManager_push _ hz]
    have htarget : (c.arch.pushed (BitVec.ofNat 8 (c.arch.pc.toNat + 2))).reg (regIndex3 c.ir.op1) =
        targetValue .call (regIndex3 c.ir.op1) c.arch.x[regIndex3 c.ir.op1] (some (c.arch.sp - 1)) :=
      State.reg_setReg _ _ _ _
    rw [htarget]
    rfl
  | ret =>
    have hz := stackManager_pop_err_none hstack
    refine (exec_ret _ hz).trans ?_
    simp only [commitEdge, execOut, controlOf, stackManager_pop _ hz]
    rfl
  | jump =>
    refine (exec_jump _ (h1 rfl)).trans ?_
    rw [← regIndex3_legal (h1 rfl)]
    rfl
  | jumpIfEqual =>
    refine (exec_jumpIfEqual _ (h1 rfl)).trans ?_
    rw [← regIndex3_legal (h1 rfl)]
    simp only [commitEdge, execOut, pcSel]
    cases c.arch.eqFlag <;> rfl
  | jumpIfNotEqual =>
    refine (exec_jumpIfNotEqual _ (h1 rfl)).trans ?_
    rw [← regIndex3_legal (h1 rfl)]
    simp only [commitEdge, execOut, pcSel]
    cases c.arch.eqFlag <;> rfl

end Sys2Proof.Machine
end

section
/-! SUPPORT. A running clock phase by phase, and the clocks of one instruction up to its EXEC phase
(spec/49_core_blocks.md R202, R212). -/

namespace Sys2Proof.Machine

/-! ### One clock of each phase -/

/-- A fetch address within memory is not reduced by its 8 bits. -/
theorem fetchData_of_le {c : CState} (h : fetchAddr c ≤ 255) :
    fetchData c = c.arch.mem.read (fetchAddr c) := by
  rw [fetchData, Nat.mod_eq_of_lt (Nat.lt_succ_of_le h)]

theorem fetchAddrErr_of_le {c : CState} (h : fetchAddr c ≤ 255) : fetchAddrErr c = false :=
  decide_eq_false (Nat.not_lt.2 h)

/-- A fetch phase whose address is above 255 raises AddressError with it. -/
theorem runningClock_beyond {m : OpcodeMap} {ins : Inputs} {c : CState} (hp : c.phase ≠ .exec)
    (h : 255 < fetchAddr c) : runningClock m ins c = faultEdge c (.address (fetchAddr c)) := by
  have herr : fetchAddrErr c = true := decide_eq_true h
  unfold runningClock
  split
  · rw [if_pos herr]
  · rw [if_pos herr]
  · rw [if_pos herr]
  · contradiction

theorem runningClock_fetch_unknown {m : OpcodeMap} {ins : Inputs} {c : CState} (hp : c.phase = .fetch)
    (h : fetchAddr c ≤ 255) (hl : lookup m (fetchData c) = none) :
    runningClock m ins c = faultEdge { c with ir := latchedIR c } (.unknownOpcode (fetchData c)) := by
  simp [runningClock, hp, fetchAddrErr_of_le h, hl]

theorem runningClock_fetch {m : OpcodeMap} {ins : Inputs} {c : CState} {n : Mnemonic}
    (hp : c.phase = .fetch) (h : fetchAddr c ≤ 255) (hl : lookup m (fetchData c) = some n) :
    runningClock m ins c = { c with ir := latchedIR c, phase := afterFetch n } := by
  simp [runningClock, hp, fetchAddrErr_of_le h, hl]

theorem runningClock_op1 {m : OpcodeMap} {ins : Inputs} {c : CState} {n : Mnemonic}
    (hp : c.phase = .op1) (h : fetchAddr c ≤ 255) (hl : lookup m c.ir.opc = some n) :
    runningClock m ins c = { c with ir := latchedIR c, phase := afterOp1 n } := by
  simp [runningClock, hp, fetchAddrErr_of_le h, hl]

theorem runningClock_op2 {m : OpcodeMap} {ins : Inputs} {c : CState} (hp : c.phase = .op2)
    (h : fetchAddr c ≤ 255) :
    runningClock m ins c = { c with ir := latchedIR c, phase := .exec } := by
  simp [runningClock, hp, fetchAddrErr_of_le h]

theorem runningClock_exec_fault {m : OpcodeMap} {ins : Inputs} {c : CState} {n : Mnemonic}
    {e : CoreError} (hp : c.phase = .exec) (hl : lookup m c.ir.opc = some n)
    (he : (execOut n c).err = some e) : runningClock m ins c = faultEdge c e := by
  simp [runningClock, hp, hl, he]

theorem runningClock_exec_wait {m : OpcodeMap} {ins : Inputs} {c : CState} {n : Mnemonic}
    (hp : c.phase = .exec) (hl : lookup m c.ir.opc = some n) (he : (execOut n c).err = none)
    (hw : ((execOut n c).outData.isSome && !ins.outReady) = true) :
    runningClock m ins c = { c with waited := true } := by
  simp only [runningClock, hp, hl, he, hw, if_true]

theorem runningClock_exec_commit {m : OpcodeMap} {ins : Inputs} {c : CState} {n : Mnemonic}
    (hp : c.phase = .exec) (hl : lookup m c.ir.opc = some n) (he : (execOut n c).err = none)
    (hw : ((execOut n c).outData.isSome && !ins.outReady) = false) :
    runningClock m ins c = commitEdge c (execOut n c) := by
  simp only [runningClock, hp, hl, he, hw]
  rfl

/-! ### The clocks before EXEC -/

/-- The phase of an operation `k` clocks after its FETCH began, while no error is raised. -/
def phaseAt (n : Mnemonic) : Nat → Phase
  | 0 => .fetch
  | 1 => afterFetch n
  | 2 => afterOp1 n
  | _ => .exec

theorem phaseAt_ne_exec {n : Mnemonic} {k : Nat} (h : k ≤ arity n) : phaseAt n k ≠ .exec := by
  have h2 := arity_le_two n
  obtain rfl | rfl | rfl : k = 0 ∨ k = 1 ∨ k = 2 := by omega
  · nofun
  · rw [phaseAt, afterFetch, if_pos h]; nofun
  · rw [phaseAt, afterOp1, if_pos (by omega)]; nofun

theorem phaseAt_exec (n : Mnemonic) : phaseAt n (1 + arity n) = .exec := by cases n <;> rfl

/-- What stands in the clocked structure `k` clocks after the FETCH of an instruction began in `c`: the
architectural state is as it was, and the first `k` bytes are latched. -/
structure Fetched (n : Mnemonic) (c : CState) (k : Nat) (d : CState) : Prop where
  arch : d.arch = c.arch
  waited : d.waited = c.waited
  phase : d.phase = phaseAt n k
  opc : 1 ≤ k → d.ir.opc = c.arch.mem.read c.arch.pc.toNat
  op1 : 2 ≤ k → d.ir.op1 = c.arch.mem.read (c.arch.pc.toNat + 1)
  op2 : 3 ≤ k → d.ir.op2 = c.arch.mem.read (c.arch.pc.toNat + 2)

section Run

variable {m : OpcodeMap} {ins : Nat → Inputs} {c : CState} {n : Mnemonic}

/-- The fetch address `k` clocks after FETCH began. -/
theorem Fetched.fetchAddr_eq {d : CState} {k : Nat} (h : Fetched n c k d) (hk : k ≤ arity n) :
    fetchAddr d = c.arch.pc.toNat + k := by
  have h2 := arity_le_two n
  obtain rfl | rfl | rfl : k = 0 ∨ k = 1 ∨ k = 2 := by omega
  · simp [fetchAddr, h.phase, h.arch, phaseAt]
  · simp [fetchAddr, h.phase, h.arch, phaseAt, afterFetch, hk]
  · simp [fetchAddr, h.phase, h.arch, phaseAt, afterOp1, Nat.le_antisymm h2 hk]

/-- One more byte latched. -/
theorem Fetched.succ {d : CState} {k : Nat} {i : Inputs} (h : Fetched n c k d) (hk : k ≤ arity n)
    (hl : lookup m (c.arch.mem.read c.arch.pc.toNat) = some n) (hfit : c.arch.pc.toNat + k ≤ 255) :
    Fetched n c (k + 1) (runningClock m i d) := by
  have h2 := arity_le_two n
  have haddr := h.fetchAddr_eq hk
  have hle : fetchAddr d ≤ 255 := by omega
  have hdata : fetchData d = c.arch.mem.read (c.arch.pc.toNat + k) := by
    rw [fetchData_of_le hle, haddr, h.arch]
  obtain rfl | rfl | rfl : k = 0 ∨ k = 1 ∨ k = 2 := by omega
  · have hphase : d.phase = .fetch := h.phase
    rw [runningClock_fetch hphase hle (by rw [hdata]; exact hl), latchedIR, hphase]
    exact ⟨h.arch, h.waited, rfl, fun _ => hdata, fun hk => by omega, fun hk => by omega⟩
  · have hphase : d.phase = .op1 := h.phase.trans (if_pos hk)
    rw [runningClock_op1 hphase hle (by rw [h.opc (Nat.le_refl _)]; exact hl), latchedIR, hphase]
    exact ⟨h.arch, h.waited, rfl, fun _ => h.opc (Nat.le_refl _), fun _ => hdata, fun hk => by omega⟩
  · have hphase : d.phase = .op2 := h.phase.trans (if_pos (Nat.le_antisymm h2 hk))
    rw [runningClock_op2 hphase hle, latchedIR, hphase]
    exact ⟨h.arch, h.waited, rfl, fun _ => h.opc (by omega), fun _ => h.op1 (Nat.le_refl _), fun _ => hdata⟩

/-- The clocks of an instruction up to its EXEC phase, as far as its bytes have addresses. -/
theorem fetched_clocks (hr : c.arch.runState = .running) (hp : c.phase = .fetch)
    (hrst : ∀ k, (ins k).rst = false) (hl : lookup m (c.arch.mem.read c.arch.pc.toNat) = some n) :
    ∀ k, k ≤ 1 + arity n → c.arch.pc.toNat + k ≤ 256 → Fetched n c k (clocks m ins k c)
  | 0, _, _ => ⟨rfl, rfl, hp, nofun, nofun, nofun⟩
  | k + 1, hk, hfit => by
    have h := fetched_clocks hr hp hrst hl k (by omega) (by omega)
    rw [clocks, clock_running (hrst k) (h.arch ▸ hr)]
    exact h.succ (by omega) hl (by omega)

end Run

end Sys2Proof.Machine
end

section
/-! SUPPORT. The clock at which an instruction ends: by an error before EXEC, by an error of EXEC, or by the
edge that ends EXEC, once the sink is ready where PRINT offers a byte (spec/49_core_blocks.md R206, R211 to
R213). -/

namespace Sys2Proof.Machine

/-- `k` clocks change no architectural state, and the next one makes the state `t`, ready to fetch. -/
structure EndsAt (m : OpcodeMap) (ins : Nat → Inputs) (c : CState) (k : Nat) (t : State) : Prop where
  arch : (clocks m ins (k + 1) c).arch = t
  phase : (clocks m ins (k + 1) c).phase = .fetch
  before : ∀ j, j ≤ k → (clocks m ins j c).arch = c.arch

/-- EXEC holds the byte of a PRINT back while the sink is not ready (49_core_blocks.md R206). -/
def stalls (n : Mnemonic) (c : CState) (i : Inputs) : Bool := (execOut n c).outData.isSome && !i.outReady

theorem stalls_of_ready {n : Mnemonic} {c : CState} {i : Inputs} (h : i.outReady = true) :
    stalls n c i = false := by simp [stalls, h]

theorem stalls_congr {n : Mnemonic} {c d : CState} (ha : d.arch = c.arch) (hi : d.ir = c.ir) (i : Inputs) :
    stalls n d i = stalls n c i := by rw [stalls, stalls, execOut_congr n ha hi]

/-- The edge that ends EXEC leaves the machine running or halted. -/
theorem commitEdge_not_faulted {c : CState} {o : ExecOut} (hr : c.arch.runState = .running) :
    (commitEdge c o).arch.runState ≠ .faulted := by
  have h : (commitEdge c o).arch.runState = if o.halts then .halted else c.arch.runState := rfl
  rw [h, hr]
  split <;> nofun

/-- A test that fails somewhere has a first place where it fails. -/
theorem exists_first_false {p : Nat → Bool} : ∀ {j : Nat}, p j = false →
    ∃ k, p k = false ∧ ∀ i, i < k → p i = true := fun {j} hj => by
  induction j using Nat.strongRecOn with
  | ind j ih =>
    by_cases hall : ∀ i, i < j → p i = true
    · exact ⟨j, hj, hall⟩
    · simp only [Classical.not_forall, Bool.not_eq_true] at hall
      obtain ⟨i, hi, hpi⟩ := hall
      exact ih i hi hpi

section Run

variable {m : OpcodeMap} {ins : Nat → Inputs} {c : CState}

theorem EndsAt.of_runningClock {k : Nat} {d : CState} (hr : c.arch.runState = .running)
    (hrst : ∀ k, (ins k).rst = false) (hbefore : ∀ j, j ≤ k → (clocks m ins j c).arch = c.arch)
    (hrun : runningClock m (ins k) (clocks m ins k c) = d) (hphase : d.phase = .fetch) :
    EndsAt m ins c k d.arch := by
  have hclock : clocks m ins (k + 1) c = d := by
    rw [clocks, clock_running (hrst k) (hbefore k (Nat.le_refl _) ▸ hr), hrun]
  exact ⟨congrArg CState.arch hclock, (congrArg CState.phase hclock).trans hphase, hbefore⟩

variable {n : Mnemonic} {k : Nat}

/-- An operand byte without an address ends the instruction at the clock of its fetch phase. -/
theorem endsAt_missing (hr : c.arch.runState = .running) (hp : c.phase = .fetch)
    (hrst : ∀ k, (ins k).rst = false) (hl : lookup m (c.arch.mem.read c.arch.pc.toNat) = some n)
    (hpc : c.arch.pc.toNat ≤ 255) (hfit : 255 < c.arch.pc.toNat + arity n) :
    EndsAt m ins c (256 - c.arch.pc.toNat) (c.arch.raise (.address 256)) := by
  have hf (j : Nat) (hj : j ≤ 256 - c.arch.pc.toNat) : Fetched n c j (clocks m ins j c) :=
    fetched_clocks hr hp hrst hl j (by omega) (by omega)
  have hlast := hf _ (Nat.le_refl _)
  have h256 : fetchAddr (clocks m ins (256 - c.arch.pc.toNat) c) = 256 := by
    rw [hlast.fetchAddr_eq (by omega)]
    omega
  have hphase : (clocks m ins (256 - c.arch.pc.toNat) c).phase ≠ .exec := by
    rw [hlast.phase]
    exact phaseAt_ne_exec (by omega)
  have hend := EndsAt.of_runningClock hr hrst (fun j hj => (hf j hj).arch)
    (runningClock_beyond hphase (by rw [h256]; decide)) rfl
  rwa [faultEdge_arch, h256, hlast.arch] at hend

/-- An instruction reaches EXEC, or the step raises and so does a clock of its fetch phases. -/
theorem endsAt_before_exec (hr : c.arch.runState = .running) (hp : c.phase = .fetch)
    (hrst : ∀ k, (ins k).rst = false) :
    (∃ k e, k ≤ 2 ∧ stepWith m c.arch = .next (c.arch.raise e) ∧
      EndsAt m ins c k (c.arch.raise e)) ∨
    (∃ n, lookup m (c.arch.mem.read c.arch.pc.toNat) = some n ∧ c.arch.pc.toNat + arity n ≤ 255) := by
  have haddr : fetchAddr c = c.arch.pc.toNat := by rw [fetchAddr, hp]
  have atFirst {d : CState} (hrun : runningClock m (ins 0) c = d) (hd : d.phase = .fetch) :
      EndsAt m ins c 0 d.arch :=
    EndsAt.of_runningClock hr hrst (fun j hj => by rw [Nat.le_zero.1 hj, clocks]) hrun hd
  by_cases hpc : 255 < c.arch.pc.toNat
  · refine .inl ⟨0, _, Nat.zero_le _, stepWith_beyond hr hpc, ?_⟩
    rw [← haddr] at hpc ⊢
    exact atFirst (runningClock_beyond (by rw [hp]; nofun) hpc) rfl
  have hle : fetchAddr c ≤ 255 := haddr ▸ Nat.not_lt.1 hpc
  have hdata : fetchData c = c.arch.mem.read c.arch.pc.toNat := by rw [fetchData_of_le hle, haddr]
  cases hl : lookup m (c.arch.mem.read c.arch.pc.toNat) with
  | none =>
    refine .inl ⟨0, _, Nat.zero_le _, stepWith_unknown hr (Nat.not_lt.1 hpc) hl, ?_⟩
    rw [← hdata] at hl ⊢
    exact atFirst (runningClock_fetch_unknown hp hle hl) rfl
  | some n =>
    by_cases hfit : c.arch.pc.toNat + arity n ≤ 255
    · exact .inr ⟨n, rfl, hfit⟩
    · have h2 := arity_le_two n
      exact .inl ⟨_, _, by omega, stepWith_missing hr (Nat.not_lt.1 hpc) hl (Nat.not_le.1 hfit),
        endsAt_missing hr hp hrst hl (Nat.not_lt.1 hpc) (Nat.not_le.1 hfit)⟩

/-- While the sink is not ready, EXEC changes neither the architectural state nor the instruction register. -/
theorem clocks_stalled (hr : (clocks m ins k c).arch.runState = .running)
    (hp : (clocks m ins k c).phase = .exec) (hl : lookup m (clocks m ins k c).ir.opc = some n)
    (he : (execOut n (clocks m ins k c)).err = none) (hrst : ∀ k, (ins k).rst = false) :
    ∀ j, (∀ i, i < j → stalls n (clocks m ins k c) (ins (k + i)) = true) →
      (clocks m ins (k + j) c).arch = (clocks m ins k c).arch ∧
      (clocks m ins (k + j) c).ir = (clocks m ins k c).ir ∧ (clocks m ins (k + j) c).phase = .exec
  | 0, _ => ⟨rfl, rfl, hp⟩
  | j + 1, hs => by
    obtain ⟨ha, hi, hph⟩ := clocks_stalled hr hp hl he hrst j fun i hij => hs i (by omega)
    have hwait : clocks m ins (k + (j + 1)) c = { clocks m ins (k + j) c with waited := true } := by
      rw [← Nat.add_assoc, clocks, clock_running (hrst _) (ha ▸ hr)]
      refine runningClock_exec_wait hph (hi ▸ hl) (by rw [execOut_congr n ha hi, he]) ?_
      exact (stalls_congr ha hi _).trans (hs j (Nat.lt_succ_self j))
    rw [hwait]
    exact ⟨ha, hi, hph⟩

/-- In EXEC the bytes of the instruction stand in the instruction register, and the step is its execution. -/
theorem stepWith_of_fetched {d : CState} (hr : c.arch.runState = .running)
    (hl : lookup m (c.arch.mem.read c.arch.pc.toNat) = some n) (hfit : c.arch.pc.toNat + arity n ≤ 255)
    (hd : Fetched n c (1 + arity n) d) :
    stepWith m c.arch = exec (.ofOperands n d.ir.op1 d.ir.op2) d.arch := by
  rw [stepWith_exec hr hl hfit, hd.arch,
    Instr.ofOperands_congr (fun h => hd.op1 (by omega)) (fun h => hd.op2 (by omega))]

/-- An error of EXEC ends the instruction at the first clock of EXEC, in the state the step raises. -/
theorem endsAt_exec_fault {e : CoreError} (hr : c.arch.runState = .running) (hp : c.phase = .fetch)
    (hrst : ∀ k, (ins k).rst = false) (hl : lookup m (c.arch.mem.read c.arch.pc.toNat) = some n)
    (hfit : c.arch.pc.toNat + arity n ≤ 255)
    (he : (execOut n (clocks m ins (1 + arity n) c)).err = some e) :
    stepWith m c.arch = .next (c.arch.raise e) ∧ EndsAt m ins c (1 + arity n) (c.arch.raise e) := by
  have hf (j : Nat) (hj : j ≤ 1 + arity n) : Fetched n c j (clocks m ins j c) :=
    fetched_clocks hr hp hrst hl j hj (by omega)
  have hd := hf _ (Nat.le_refl _)
  have hend := EndsAt.of_runningClock hr hrst (fun j hj => (hf j hj).arch)
    (runningClock_exec_fault (hd.phase.trans (phaseAt_exec n)) (by rw [hd.opc (by omega)]; exact hl) he) rfl
  rw [faultEdge_arch, hd.arch] at hend
  exact ⟨by rw [stepWith_of_fetched hr hl hfit hd, exec_of_execOut_err he, hd.arch], hend⟩

/-- With no error the instruction ends at the first clock of EXEC that does not stall, in the state the step
answers. -/
theorem endsAt_exec_commit {j : Nat} (hr : c.arch.runState = .running) (hp : c.phase = .fetch)
    (hrst : ∀ k, (ins k).rst = false) (hl : lookup m (c.arch.mem.read c.arch.pc.toNat) = some n)
    (hfit : c.arch.pc.toNat + arity n ≤ 255) (he : (execOut n (clocks m ins (1 + arity n) c)).err = none)
    (hs : ∀ i, i < j → stalls n (clocks m ins (1 + arity n) c) (ins (1 + arity n + i)) = true)
    (hgo : stalls n (clocks m ins (1 + arity n) c) (ins (1 + arity n + j)) = false) :
    ∃ t, stepWith m c.arch = .next t ∧ t.runState ≠ .faulted ∧
      EndsAt m ins c (1 + arity n + j) t := by
  have hf (j : Nat) (hj : j ≤ 1 + arity n) : Fetched n c j (clocks m ins j c) :=
    fetched_clocks hr hp hrst hl j hj (by omega)
  have hd := hf _ (Nat.le_refl _)
  have hopc : lookup m (clocks m ins (1 + arity n) c).ir.opc = some n := by
    rw [hd.opc (by omega)]
    exact hl
  have stalled (i : Nat) (hi : i ≤ j) := clocks_stalled (hd.arch ▸ hr) (hd.phase.trans (phaseAt_exec n))
    hopc he hrst i fun i' hi' => hs i' (by omega)
  obtain ⟨ha, hi, hph⟩ := stalled j (Nat.le_refl _)
  have hout := execOut_congr n ha hi
  have hend : EndsAt m ins c (1 + arity n + j) _ := EndsAt.of_runningClock hr hrst (fun i hij => ?_)
    (runningClock_exec_commit hph (hi ▸ hopc) (by rw [hout, he]) ((stalls_congr ha hi _).trans hgo)) rfl
  · refine ⟨_, ?_, commitEdge_not_faulted (ha ▸ hd.arch ▸ hr), hend⟩
    rw [stepWith_of_fetched hr hl hfit hd, ← hi, ← ha]
    exact exec_of_execOut_ok (by rw [hout, he])
  · by_cases hle : i ≤ 1 + arity n
    · exact (hf i hle).arch
    · obtain ⟨i', rfl⟩ := Nat.exists_eq_add_of_le (Nat.le_of_not_le hle)
      exact (stalled i' (by omega)).1.trans hd.arch

end Run

end Sys2Proof.Machine
end

section
/-! PROOFS. The two views agree, and how many clocks an instruction takes (spec/49_core_blocks.md R213,
R216). -/

namespace Sys2Proof.Machine

/-- Settles O53: an error ends the instruction at a known clock; otherwise it ends at the first clock of EXEC
at which the sink is ready, which exists as the sink is ready again and again. -/
theorem clockedViewRefinesStep : Obligations.ClockedViewRefinesStep := fun m ins c hr hp hrst hready => by
  have done {k : Nat} {t : State} (hs : stepWith m c.arch = .next t) (h : EndsAt m ins c k t) :
      ∃ n t, stepWith m c.arch = .next t ∧ (clocks m ins (n + 1) c).arch = t ∧
        (clocks m ins (n + 1) c).phase = .fetch ∧ ∀ k, k ≤ n → (clocks m ins k c).arch = c.arch :=
    ⟨k, t, hs, h.arch, h.phase, h.before⟩
  obtain ⟨k, e, -, hs, hend⟩ | ⟨n, hl, hfit⟩ := endsAt_before_exec (m := m) hr hp hrst
  · exact done hs hend
  cases he : (execOut n (clocks m ins (1 + arity n) c)).err with
  | some e =>
    obtain ⟨hs, hend⟩ := endsAt_exec_fault hr hp hrst hl hfit he
    exact done hs hend
  | none =>
    obtain ⟨j, hj, hout⟩ := hready (1 + arity n)
    obtain ⟨j, rfl⟩ := Nat.exists_eq_add_of_le hj
    obtain ⟨k, hgo, hwait⟩ := exists_first_false (j := j)
      (p := fun j => stalls n (clocks m ins (1 + arity n) c) (ins (1 + arity n + j))) (stalls_of_ready hout)
    obtain ⟨t, hs, -, hend⟩ := endsAt_exec_commit hr hp hrst hl hfit he hwait hgo
    exact done hs hend

/-- Settles O54: with the sink ready EXEC takes one clock, after one clock per byte; an error ends the
instruction in one of these. -/
theorem clockCounts : Obligations.ClockCounts := fun m ins c t hr hp hins hs => by
  have hrst (k : Nat) := (hins k).1
  have before {k : Nat} (h : EndsAt m ins c k t) (j : Nat) (hj : j < k + 1) :
      (clocks m ins j c).arch = c.arch := h.before j (Nat.le_of_lt_succ hj)
  obtain ⟨k, e, hk, hs', hend⟩ | ⟨n, hl, hfit⟩ := endsAt_before_exec (m := m) hr hp hrst
  · obtain rfl := Host.Outcome.next.inj (hs'.symm.trans hs)
    exact ⟨fun i rest _ hf => absurd rfl hf,
      fun _ => ⟨k + 1, by omega, by omega, hend.arch, before hend⟩⟩
  have h2 := arity_le_two n
  cases he : (execOut n (clocks m ins (1 + arity n) c)).err with
  | some e =>
    obtain ⟨hs', hend⟩ := endsAt_exec_fault hr hp hrst hl hfit he
    obtain rfl := Host.Outcome.next.inj (hs'.symm.trans hs)
    exact ⟨fun i rest _ hf => absurd rfl hf,
      fun _ => ⟨1 + arity n + 1, by omega, by omega, hend.arch, before hend⟩⟩
  | none =>
    obtain ⟨t', hs', hf, hend⟩ := endsAt_exec_commit (j := 0) hr hp hrst hl hfit he nofun
      (stalls_of_ready (hins _).2)
    obtain rfl := Host.Outcome.next.inj (hs'.symm.trans hs)
    refine ⟨fun i rest hd _ => ?_, fun hf' => absurd hf' hf⟩
    obtain rfl : n = i.mnemonic := Option.some.inj (hl.symm.trans (decode_fetchBytes_ok hd).1)
    rw [show 2 + arity i.mnemonic = 1 + arity i.mnemonic + 1 by omega]
    exact ⟨hend.arch, hend.phase, before hend⟩

end Sys2Proof.Machine
end

section
/-! SUPPORT. The ports of the clocked view: the output port and the memory port inverted, and EXEC while the
sink is not ready (spec/49_core_blocks.md R206, R208, R214). -/

namespace Sys2Proof.Machine

/-! ### The output port -/

/-- A byte is offered exactly in the EXEC phase of an operation that raised nothing and offers it. -/
theorem outPort_eq_some {m : OpcodeMap} {c : CState} {v : Byte} (h : outPort m c = some v) :
    c.arch.runState = .running ∧ c.phase = .exec ∧ ∃ n, lookup m c.ir.opc = some n ∧
      (execOut n c).err = none ∧ (execOut n c).outData = some v := by
  unfold outPort at h
  split at h
  · rename_i hr hp
    cases hl : lookup m c.ir.opc with
    | none => rw [hl] at h; cases h
    | some n =>
      simp only [hl, Option.ite_none_right_eq_some, Option.isNone_iff_eq_none] at h
      exact ⟨hr, hp, n, rfl, h⟩
  · cases h

theorem outPort_of_exec {m : OpcodeMap} {c : CState} {n : Mnemonic} (hr : c.arch.runState = .running)
    (hp : c.phase = .exec) (hl : lookup m c.ir.opc = some n) (he : (execOut n c).err = none) :
    outPort m c = (execOut n c).outData := by
  simp [outPort, hr, hp, hl, he]

theorem commitEdge_out_of_none (c : CState) {o : ExecOut} (h : o.outData = none) :
    (commitEdge c o).arch.out = c.arch.out := by simp [commitEdge, h]

theorem commitEdge_out_of_some (c : CState) {o : ExecOut} {v : Byte} (h : o.outData = some v) :
    (commitEdge c o).arch.out = c.arch.out ++ [v] := by simp [commitEdge, h]

/-- PRINT alone offers a byte. -/
theorem execOut_outData_some {n : Mnemonic} {c : CState} {v : Byte} (h : (execOut n c).outData = some v) :
    n = .print := by
  refine Classical.byContradiction fun hn => ?_
  have hnone : (execOut n c).outData = none := if_neg hn
  rw [hnone] at h
  cases h

theorem loadingClock_eq (i : Inputs) (s : State) :
    loadingClock i s = if i.start then hostStart (if i.ldWe then loaderWrite s i.ldAddr i.ldData else s)
      else if i.ldWe then loaderWrite s i.ldAddr i.ldData else s := rfl

theorem loadingClock_out (i : Inputs) (s : State) : (loadingClock i s).out = s.out := by
  have write (a v : Byte) : (loaderWrite s a v).out = s.out := by unfold loaderWrite; split <;> rfl
  have start (u : State) : (hostStart u).out = u.out := by unfold hostStart; split <;> rfl
  have stored : (if i.ldWe then loaderWrite s i.ldAddr i.ldData else s).out = s.out := by
    split
    · exact write _ _
    · rfl
  rw [loadingClock_eq]
  split
  · exact (start _).trans stored
  · exact stored

/-! ### The instruction register and the codes -/

/-- A fetch phase latches its byte, also where it then raises, unless its address is above 255. -/
theorem runningClock_ir {m : OpcodeMap} {i : Inputs} {c : CState} (hp : c.phase ≠ .exec) :
    (runningClock m i c).ir = if fetchAddr c ≤ 255 then latchedIR c else c.ir := by
  by_cases h : fetchAddr c ≤ 255
  · rw [if_pos h]
    have herr := fetchAddrErr_of_le h
    unfold runningClock
    split
    · rw [herr]
      cases lookup m (fetchData c) <;> rfl
    · rw [herr]
      cases lookup m c.ir.opc <;> rfl
    · rw [herr]
      rfl
    · contradiction
  · rw [if_neg h, runningClock_beyond hp (Nat.not_le.1 h), faultEdge_ir]

theorem errCause_code_ne_zero {e : ErrCause} : e.code ≠ 0 ↔ e ≠ .noError := by cases e <;> decide

/-- The codes of the errors that can be recorded are at most 3. -/
theorem errCause_code_le {e : ErrCause} {v : Int} (h : errRecordLegal e v) : e.code.toNat ≤ 3 := by
  cases e with
  | fatalError => exact h.elim
  | _ => decide

theorem runState_code_injective {a b : RunState} (h : a.code = b.code) : a = b := by
  revert h
  cases a <;> cases b <;> decide

/-! ### The trace port -/

theorem traceRecord_of_ne_exec {en : Bool} {m : OpcodeMap} {c : CState} (h : c.phase ≠ .exec) :
    traceRecord en m c = none := by
  unfold traceRecord
  split
  · contradiction
  · rfl

theorem traceRecord_of_waited {en : Bool} {m : OpcodeMap} {c : CState} (h : c.waited = true) :
    traceRecord en m c = none := by
  unfold traceRecord
  split
  · rw [h, Bool.not_true, Bool.and_false]
    rfl
  · rfl

theorem traceRecord_of_exec {m : OpcodeMap} {c : CState} {n : Mnemonic} (hr : c.arch.runState = .running)
    (hp : c.phase = .exec) (hl : lookup m c.ir.opc = some n) (hw : c.waited = false) :
    traceRecord true m c = some {
      pc := c.arch.pc, opc := c.ir.opc, op1 := if 1 ≤ arity n then c.ir.op1 else 0
      op2 := if arity n = 2 then c.ir.op2 else 0, x := c.arch.x } := by
  simp [traceRecord, hr, hp, hl, hw]

/-- A clock that begins and ends in EXEC was one that waited. -/
theorem runningClock_stays_exec {m : OpcodeMap} {i : Inputs} {c : CState} (hp : c.phase = .exec)
    (hp' : (runningClock m i c).phase = .exec) : runningClock m i c = { c with waited := true } := by
  obtain ⟨e, ir, -, h⟩ | ⟨p, hne, -⟩ | ⟨n, v, -, -, -, -, -, h⟩ | ⟨n, -, -, -, h⟩ :=
    runningClock_cases m i c
  · rw [h] at hp'
    cases hp'
  · exact absurd hp hne
  · exact h
  · rw [h] at hp'
    cases hp'

/-- From a running EXEC clock on, every further clock in EXEC is one that has waited. -/
theorem clocks_stay_exec {m : OpcodeMap} {ins : Nat → Inputs} {c : CState} {k : Nat}
    (hr : (clocks m ins k c).arch.runState = .running) (hrst : ∀ k, (ins k).rst = false) :
    ∀ j, (∀ i, i ≤ j → (clocks m ins (k + i) c).phase = .exec) →
      (clocks m ins (k + j) c).arch.runState = .running ∧
      (1 ≤ j → (clocks m ins (k + j) c).waited = true)
  | 0, _ => ⟨hr, nofun⟩
  | j + 1, h => by
    obtain ⟨hrj, -⟩ := clocks_stay_exec hr hrst j fun i hi => h i (by omega)
    have hstep : clocks m ins (k + (j + 1)) c = runningClock m (ins (k + j)) (clocks m ins (k + j) c) := by
      rw [← Nat.add_assoc, clocks, clock_running (hrst _) hrj]
    have hlast := h (j + 1) (Nat.le_refl _)
    rw [hstep] at hlast ⊢
    rw [runningClock_stays_exec (h j (Nat.le_succ j)) hlast]
    exact ⟨hrj, fun _ => rfl⟩

/-! ### The memory port -/

theorem loadingClock_mem {i : Inputs} {s : State} (h : s.runState = .loading) :
    (loadingClock i s).mem = if i.ldWe then s.mem.write i.ldAddr.toNat i.ldData else s.mem := by
  have start (u : State) : (hostStart u).mem = u.mem := by unfold hostStart; split <;> rfl
  have stored : (if i.ldWe then loaderWrite s i.ldAddr i.ldData else s).mem =
      if i.ldWe then s.mem.write i.ldAddr.toNat i.ldData else s.mem := by
    rw [loaderWrite_of_loading h]
    cases i.ldWe <;> rfl
  rw [loadingClock_eq]
  split
  · exact (start _).trans stored
  · exact stored

theorem commitEdge_mem_of_none (c : CState) {o : ExecOut} (h : o.stack.write = none) :
    (commitEdge c o).arch.mem = c.arch.mem := by simp [commitEdge, h]

theorem commitEdge_mem_of_some (c : CState) {o : ExecOut} {v : Byte} (h : o.stack.write = some v) :
    (commitEdge c o).arch.mem = c.arch.mem.write o.stack.addr.toNat v := by simp [commitEdge, h]

/-- Where the stack manager writes, its address is a byte (49_core_blocks.md R205). -/
theorem stackManager_addr {op : StackOp} {sp v w : Byte} (h : (stackManager op sp v).write = some w) :
    (BitVec.ofInt 8 (stackManager op sp v).addr).toNat = (stackManager op sp v).addr.toNat := by
  have hlt : sp.toNat < 256 := sp.isLt
  cases op with
  | noStack => cases h
  | push =>
    by_cases hz : sp.toNat = 0
    · simp [stackManager, hz] at h
    · rw [stackManager_push v hz, BitVec.ofInt_natCast, BitVec.toNat_ofNat, Int.toNat_natCast]
      exact Nat.mod_eq_of_lt (by omega)
  | pop =>
    by_cases hz : sp.toNat = 255
    · simp [stackManager, hz] at h
    · rw [stackManager_pop v hz] at h
      cases h

theorem execOut_stack_addr {n : Mnemonic} {c : CState} {w : Byte} (h : (execOut n c).stack.write = some w) :
    (BitVec.ofInt 8 (execOut n c).stack.addr).toNat = (execOut n c).stack.addr.toNat :=
  stackManager_addr h

/-- An operation that offers a byte writes no memory. -/
theorem execOut_write_of_outData {n : Mnemonic} {c : CState} {v : Byte}
    (h : (execOut n c).outData = some v) : (execOut n c).stack.write = none := by
  rw [execOut_outData_some h]
  rfl

/-- Outside EXEC a running core writes no memory. -/
theorem memPort_we_of_ne_exec {m : OpcodeMap} {i : Inputs} {c : CState} (hr : c.arch.runState = .running)
    (hp : c.phase ≠ .exec) : (memPort m i c).we = false := by
  cases hphase : c.phase with
  | exec => exact absurd hphase hp
  | _ => simp [memPort, hr, hphase]

theorem execMemPort_we_of_write_none {m : OpcodeMap} {c : CState} {n : Mnemonic}
    (hl : lookup m c.ir.opc = some n) (h : (execOut n c).stack.write = none) :
    (execMemPort m c).we = false := by
  simp [execMemPort, hl, h]

theorem execMemPort_we_of_err {m : OpcodeMap} {c : CState} {n : Mnemonic} {e : CoreError}
    (hl : lookup m c.ir.opc = some n) (h : (execOut n c).err = some e) :
    (execMemPort m c).we = false := by
  simp [execMemPort, hl, h]

theorem execMemPort_of_write {m : OpcodeMap} {c : CState} {n : Mnemonic} {v : Byte}
    (hl : lookup m c.ir.opc = some n) (he : (execOut n c).err = none)
    (h : (execOut n c).stack.write = some v) :
    execMemPort m c = ⟨BitVec.ofInt 8 (execOut n c).stack.addr, true, v⟩ := by
  simp [execMemPort, hl, he, h]

theorem memPort_of_exec {m : OpcodeMap} {i : Inputs} {c : CState} (hr : c.arch.runState = .running)
    (hp : c.phase = .exec) : memPort m i c = execMemPort m c := by
  simp [memPort, hr, hp]

/-- Memory after a running clock is what the memory port writes. -/
theorem runningClock_mem {m : OpcodeMap} {i : Inputs} {c : CState} (hr : c.arch.runState = .running) :
    (runningClock m i c).arch.mem =
      if (memPort m i c).we then c.arch.mem.write (memPort m i c).addr.toNat (memPort m i c).wdata
      else c.arch.mem := by
  by_cases hp : c.phase = .exec
  · rw [memPort_of_exec hr hp]
    cases hl : lookup m c.ir.opc with
    | none => simp [runningClock, execMemPort, hp, hl]
    | some n =>
      cases he : (execOut n c).err with
      | some e => rw [runningClock_exec_fault hp hl he, execMemPort_we_of_err hl he]; rfl
      | none =>
        cases hw : (execOut n c).stack.write with
        | none =>
          rw [execMemPort_we_of_write_none hl hw]
          cases hs : (execOut n c).outData.isSome && !i.outReady with
          | true => rw [runningClock_exec_wait hp hl he hs]; rfl
          | false =>
            rw [runningClock_exec_commit hp hl he hs]
            exact commitEdge_mem_of_none c hw
        | some v =>
          have hout : (execOut n c).outData = none := by
            cases ho : (execOut n c).outData with
            | none => rfl
            | some b => rw [execOut_write_of_outData ho] at hw; cases hw
          rw [runningClock_exec_commit hp hl he (by rw [hout]; rfl), commitEdge_mem_of_some c hw,
            execMemPort_of_write hl he hw, if_pos rfl]
          dsimp only
          rw [execOut_stack_addr hw]
  · rw [memPort_we_of_ne_exec hr hp]
    obtain ⟨e, ir, -, h⟩ | ⟨p, -, -, h⟩ | ⟨n, v, hp', -⟩ | ⟨n, hp', -⟩ :=
      runningClock_cases m i c
    · rw [h]; rfl
    · rw [h]; rfl
    · exact absurd hp' hp
    · exact absurd hp' hp

end Sys2Proof.Machine
end

section
/-! PROOFS. The clocked view outside the step: the ports, the phases, the pins (spec/49_core_blocks.md R200 to
R215). -/

namespace Sys2Proof.Machine

/-- Settles O55: a waiting EXEC changes only the bit that it has waited; the edge that ends EXEC appends what
is offered, and nothing else appends. -/
theorem outputHandshake : Obligations.OutputHandshake := fun m i c hrst => by
  refine ⟨fun v hv hw => ?_, fun v hv hready => ?_, fun hnone => ?_⟩
  · obtain ⟨hr, hp, n, hl, he, hout⟩ := outPort_eq_some hv
    rw [clock_running hrst hr, runningClock_exec_wait hp hl he (by rw [hout, hw]; rfl)]
    refine ⟨rfl, ?_⟩
    rw [← hv]
    rfl
  · obtain ⟨hr, hp, n, hl, he, hout⟩ := outPort_eq_some hv
    have hgo : ((execOut n c).outData.isSome && !i.outReady) = false := by
      rw [hready, Bool.not_true, Bool.and_false]
    rw [clock_running hrst hr, runningClock_exec_commit hp hl he hgo]
    refine ⟨commitEdge_out_of_some c hout, rfl, ?_⟩
    rw [execOut_outData_some hout]
    rfl
  · cases hr : c.arch.runState with
    | loading => rw [clock_loading hrst hr]; exact loadingClock_out i c.arch
    | halted => rw [clock_halted hrst hr]
    | faulted => rw [clock_faulted hrst hr]
    | running =>
      rw [clock_running hrst hr]
      obtain ⟨e, ir, -, h⟩ | ⟨p, -, -, h⟩ | ⟨n, v, hp, hl, he, hout, -, h⟩ | ⟨n, hp, hl, he, h⟩ :=
        runningClock_cases m i c <;> rw [h]
      · rfl
      · rw [outPort_of_exec hr hp hl he] at hnone
        exact commitEdge_out_of_none c hnone

/-- Settles O56: in LOADING the loader's write, in EXEC the stack manager's; every other clock leaves memory
alone. -/
theorem memoryPortCarriesEveryWrite : Obligations.MemoryPortCarriesEveryWrite := fun m i c hrst => by
  cases hr : c.arch.runState with
  | loading =>
    rw [clock_loading hrst hr]
    have hport : memPort m i c = ⟨i.ldAddr, i.ldWe, i.ldData⟩ := by simp [memPort, hr]
    rw [hport]
    exact ⟨loadingClock_mem hr, fun _ => .inl rfl⟩
  | halted =>
    have hport : (memPort m i c).we = false := by simp [memPort, hr]
    rw [clock_halted hrst hr, hport]
    exact ⟨rfl, nofun⟩
  | faulted =>
    have hport : (memPort m i c).we = false := by simp [memPort, hr]
    rw [clock_faulted hrst hr, hport]
    exact ⟨rfl, nofun⟩
  | running =>
    refine ⟨?_, fun hwe => .inr ⟨rfl, Classical.not_not.1 fun hp => ?_⟩⟩
    · rw [clock_running hrst hr]
      exact runningClock_mem hr
    · rw [memPort_we_of_ne_exec hr hp] at hwe
      cases hwe

/-- Settles O57: the clocks of reset, HALTED and FAULTED by their equations, those of LOADING by the answers
of the loader and `start`. -/
theorem clocksOutsideRunning : Obligations.ClocksOutsideRunning := fun m i c => by
  refine ⟨fun hrst => by rw [clock_rst hrst]; rfl, fun hrst h => ?_, fun hrst hr => ?_⟩
  · obtain h | h := h
    · exact clock_halted hrst h
    · exact clock_faulted hrst h
  · rw [clock_loading hrst hr]
    have hstored := loaderWrite_of_loading hr i.ldAddr i.ldData
    obtain ⟨hrun, hhalt, -⟩ := startAndLoaderOnlyInLoading c.arch
    refine ⟨fun hwe hst => ?_, fun hwe hst => ?_, fun hwe hst => ?_, fun hwe hst hp => ?_,
      fun hwe hst hp => ?_⟩ <;> rw [loadingClock_eq, hwe, hst]
    · rfl
    · exact ⟨rfl, hstored⟩
    · exact ⟨rfl, (congrArg hostStart hstored).trans ((startAndLoaderOnlyInLoading _).1 hr rfl)⟩
    · exact hrun hr hp
    · exact hhalt hr hp

/-- Settles O59: each pin is its field; the invariant ties the cause to FAULTED and bounds its code. -/
theorem statusPinsReport : Obligations.StatusPinsReport := fun s => by
  refine ⟨rfl, decide_eq_true_iff, decide_eq_true_iff, rfl, rfl, rfl, rfl, rfl, rfl, rfl, fun hinv => ?_⟩
  have hf : (statusPins s).faulted = true ↔ s.runState = .faulted := decide_eq_true_iff
  have hh : (statusPins s).halted = true ↔ s.runState = .halted := decide_eq_true_iff
  rw [hf, hh]
  refine ⟨hinv.faultedIff.trans errCause_code_ne_zero.symm, errCause_code_le hinv.errValLegal,
    fun ⟨h1, h2⟩ => ?_, fun h => ⟨?_, rfl⟩, fun h => hinv.loaded (runState_code_injective h)⟩
  · rw [h1] at h2
    cases h2
  · exact hinv.errPcIs.trans (if_pos h)

/-- Settles O60: a fetch phase latches where its address is within memory, and raises without latching above;
EXEC never latches. -/
theorem fetchPhasesLatchTheirByte : Obligations.FetchPhasesLatchTheirByte := fun m i c hrst hr => by
  rw [clock_running hrst hr]
  have latched {a : Nat} {ir : IR} (hp : c.phase ≠ .exec) (haddr : fetchAddr c = a)
      (hir : fetchData c = c.arch.mem.read a → latchedIR c = ir) :
      (runningClock m i c).ir = if a ≤ 255 then ir else c.ir := by
    subst haddr
    rw [runningClock_ir hp]
    by_cases h : fetchAddr c ≤ 255
    · rw [if_pos h, if_pos h]
      exact hir (fetchData_of_le h)
    · rw [if_neg h, if_neg h]
  refine ⟨fun hp => ?_, fun hp => ?_, fun hp => ?_, fun hp => ?_⟩
  · exact latched (by rw [hp]; nofun) (by rw [fetchAddr, hp]) fun h => by rw [latchedIR, hp, h]
  · exact latched (by rw [hp]; nofun) (by rw [fetchAddr, hp]) fun h => by rw [latchedIR, hp, h]
  · exact latched (by rw [hp]; nofun) (by rw [fetchAddr, hp]) fun h => by rw [latchedIR, hp, h]
  · obtain ⟨e, ir, hir, h⟩ | ⟨p, hp', -⟩ | ⟨n, v, -, -, -, -, -, h⟩ | ⟨n, -, -, -, h⟩ :=
      runningClock_cases m i c
    · rw [h, faultEdge_ir]
      obtain rfl | rfl := hir
      · rfl
      · rw [latchedIR, hp]
    · exact absurd hp hp'
    · rw [h]
    · rw [h, commitEdge_ir]

/-- Settles O52: the pushed byte stands at its cell, and the push leaves every other cell alone. -/
theorem fetchSeesPushedByte : Obligations.FetchSeesPushedByte := fun s t v p hw h k hk => by
  have hlt : s.sp.toNat < 256 := s.sp.isLt
  obtain ⟨-, h'⟩ | ⟨hz, h'⟩ := push_cases h
  · cases h'
  · cases h'
    rw [fetchBytes_getElem?, fetchBytes_getElem?]
    dsimp only
    by_cases hcell : p.toNat + k = s.sp.toNat - 1
    · rw [if_pos hcell, if_pos ⟨hk, by omega⟩, hcell]
      exact congrArg some (State.pushed_read_self v hw)
    · rw [if_neg hcell]
      by_cases hin : k < 3 ∧ p.toNat + k < 256
      · rw [if_pos hin, if_pos hin]
        exact congrArg some (State.pushed_read_ne v hcell)
      · rw [if_neg hin, if_neg hin]

/-- Settles O58: the record stands at the first clock of EXEC, where all bytes are latched; the clocks before
it are in other phases, and those after it have waited. -/
theorem traceRecordsEveryExecutedInstruction : Obligations.TraceRecordsEveryExecutedInstruction := by
  refine ⟨fun m c => ?absent, fun m ins c n hr hp hw hrst hl hfit => ?record, rfl,
    fun m i c hclear hp => ?clear⟩
  case absent =>
    unfold tracePort traceRecord
    split <;> rfl
  case record =>
    have h2 := arity_le_two n
    have hf (k : Nat) (hk : k ≤ 1 + arity n) : Fetched n c k (clocks m ins k c) :=
      fetched_clocks hr hp hrst hl k hk (by omega)
    have hd := hf _ (Nat.le_refl _)
    refine ⟨fun k hk => ?_, ?_, fun j hj hexec => ?_⟩
    · refine traceRecord_of_ne_exec ?_
      rw [(hf k (by omega)).phase]
      exact phaseAt_ne_exec hk
    · rw [traceRecord_of_exec (hd.arch ▸ hr) (hd.phase.trans (phaseAt_exec n))
        (by rw [hd.opc (by omega)]; exact hl) (hd.waited.trans hw), hd.arch, hd.opc (by omega)]
      have hop1 : (if 1 ≤ arity n then (clocks m ins (1 + arity n) c).ir.op1 else 0) =
          if 1 ≤ arity n then c.arch.mem.read (c.arch.pc.toNat + 1) else 0 := by
        by_cases h : 1 ≤ arity n
        · rw [if_pos h, if_pos h]
          exact hd.op1 (by omega)
        · rw [if_neg h, if_neg h]
      have hop2 : (if arity n = 2 then (clocks m ins (1 + arity n) c).ir.op2 else 0) =
          if 2 ≤ arity n then c.arch.mem.read (c.arch.pc.toNat + 2) else 0 := by
        by_cases h : arity n = 2
        · rw [if_pos h, if_pos (Nat.le_of_eq h.symm)]
          exact hd.op2 (by omega)
        · rw [if_neg h, if_neg (by omega)]
      rw [hop1, hop2]
      rfl
    · obtain ⟨-, hwaited⟩ := clocks_stay_exec (hd.arch ▸ hr) hrst j hexec
      exact traceRecord_of_waited (hwaited hj)
  case clear =>
    cases hrst : i.rst with
    | true => rw [clock_rst hrst]; rfl
    | false =>
      cases hr : c.arch.runState with
      | loading => rw [clock_loading hrst hr]
      | halted =>
        rw [clock_halted hrst hr] at hp ⊢
        exact hclear hp
      | faulted =>
        rw [clock_faulted hrst hr] at hp ⊢
        exact hclear hp
      | running =>
        rw [clock_running hrst hr] at hp ⊢
        obtain ⟨e, ir, -, h⟩ | ⟨p, hne, -, h⟩ | ⟨n, v, hexec, -, -, -, -, h⟩ | ⟨n, -, -, -, h⟩ :=
          runningClock_cases m i c <;> rw [h] at hp ⊢
        · rfl
        · exact hclear hne
        · exact absurd hexec hp
        · rfl

end Sys2Proof.Machine
end
